-- ==== Sys2Proof/Word.lean ====
section
/-! DEFINITION. The word types of EDTR and its two kinds of time value
(spec/00_scope.md R9 to R11, spec/20_memory.md R46, spec/30_encoding.md R63, spec/40_duration.md R77). -/

namespace Sys2Proof

/-- A level is one observed logic level, 0 (`false`) or 1 (`true`) (00_scope.md R10). -/
abbrev Level := Bool

/-- A command word: 68 bits, bit 0 least significant (30_encoding.md R63, 00_scope.md R7 `WORD_W`). -/
abbrev CmdWord := BitVec 68

/-- A response, a numbered register or a slot of `TR` read as one word: 64 bits
(10_state.md R32, 20_memory.md R46). -/
abbrev RegWord := BitVec 64

/-- Nanoseconds in a second: a sub-second part is well-formed below this number (00_scope.md R11). -/
abbrev nsPerSec : Nat := 1000000000

/-- A timestamp `(sec, nsec)` with `SEC_W = 32` and `NSEC_W = 30` (00_scope.md R11, R7). -/
structure Timestamp where
  sec  : BitVec 32
  nsec : BitVec 30
deriving DecidableEq, Repr

/-- A duration `(dsec, dnsec)` (40_duration.md R77). -/
structure Duration where
  dsec  : BitVec 32
  dnsec : BitVec 30
deriving DecidableEq, Repr

end Sys2Proof
end

