-- ==== Sys2Proof/Syntax.lean ====
section
/-! DEFINITION. The seven commands of spec/opcode_table.json, one constructor a row, and the shape of a row
of the opcode map (spec/30_encoding.md R63 to R69). An ILLEGAL word is no command (R68). -/

namespace Sys2Proof

/-- A command of EDTR, its operands as the fields of R64 to R67 give them. -/
inductive Instr where
  /-- NOP, format Z (44_control_readout.md R102). -/
  | nop
  /-- CLEAR, format Z (44_control_readout.md R103). -/
  | clear
  /-- SAMPLE, format S: the level read and the time of the read (41_capture.md R83). -/
  | sample (level : Level) (t : Timestamp)
  /-- DECODE, format Z (42_decode.md R87). -/
  | decode
  /-- VALIDATE, format Z (43_validate.md R94). -/
  | validate
  /-- RD, format R: a register number, 0 to 31 (44_control_readout.md R104). -/
  | rd (reg : BitVec 5)
  /-- RDT, format T: a slot index, 0 to 65535 (44_control_readout.md R105). -/
  | rdt (idx : BitVec 16)
deriving DecidableEq, Repr

/-- The four formats of a command word (30_encoding.md R63). -/
inductive Format where
  | z | s | r | t
deriving DecidableEq, Repr

/-- A row of the opcode map (30_encoding.md R69): `w &&& mask = pattern` makes `w` a candidate. -/
structure TableRow where
  mnemonic : String
  format   : Format
  pattern  : CmdWord
  mask     : CmdWord
deriving DecidableEq, Repr

end Sys2Proof
end

