-- ==== Sys2Proof/WellFormed.lean ====
section
/-! DEFINITION. When a command is one that some word encodes: a timestamp operand must be well-formed
(spec/00_scope.md R11, spec/30_encoding.md R65). Every other operand is legal at every value. -/

namespace Sys2Proof

/-- A timestamp is well-formed when `nsec < 1000000000` (00_scope.md R11). -/
abbrev Timestamp.WellFormed (t : Timestamp) : Prop := t.nsec.toNat < nsPerSec

/-- A command is well-formed when its operands are legal values of their fields (30_encoding.md R64 to
R67): `nsec` is 0 to 999999999, `reg` is 0 to 31, `idx` is 0 to 65535. -/
def Instr.wf : Instr → Bool
  | .nop => true
  | .clear => true
  | .sample _ t => decide t.WellFormed
  | .decode => true
  | .validate => true
  | .rd _ => true
  | .rdt _ => true

end Sys2Proof
end

