-- ==== Sys2Proof/Decode.lean ====
section
/-! DEFINITION. The decoder, total on every 68-bit word, with a name for each way a word is ILLEGAL
(spec/30_encoding.md R68 to R72); the encoder, written from the field tables R64 to R67; the opcode map
of R69; and the host's view of the decoder, `decodeTableWord`. -/

namespace Sys2Proof

/-- Why a word is ILLEGAL (30_encoding.md R70 to R72). All of them execute alike (R106). -/
inductive Illegal where
  /-- `op` is 7 to 15 (R70). -/
  | reservedOpcode
  /-- A format Z word whose payload is not 0 (R71). -/
  | payloadNotZero
  /-- A SAMPLE with bit 63 set (R71). -/
  | sampleReservedBit
  /-- A SAMPLE with `nsec` 1000000000 or more (R72). -/
  | nsecOutOfRange
  /-- An RD with a bit of 63:5 set (R71). -/
  | rdReservedBits
  /-- An RDT with a bit of 63:16 set (R71). -/
  | rdtReservedBits
deriving DecidableEq, Repr

/-- Bits 67:64, the opcode (R63). -/
def opField (w : CmdWord) : BitVec 4 := w.extractLsb' 64 4

/-- Bits 63:0, the payload (R63). -/
def payloadField (w : CmdWord) : BitVec 64 := w.extractLsb' 0 64

/-- Bit 62, the level of a SAMPLE (R65). -/
def levelField (w : CmdWord) : Level := w.getLsbD 62

/-- Bits 61:30 and 29:0, the timestamp of a SAMPLE (R65). -/
def timeField (w : CmdWord) : Timestamp where
  sec  := w.extractLsb' 30 32
  nsec := w.extractLsb' 0 30

/-- Bits 4:0, the register number of an RD (R66). -/
def regField (w : CmdWord) : BitVec 5 := w.extractLsb' 0 5

/-- Bits 15:0, the slot index of an RDT (R67). -/
def idxField (w : CmdWord) : BitVec 16 := w.extractLsb' 0 16

/-- A format Z word: the command, if the payload is 0 (R64, R71). -/
def decodeZ (i : Instr) (w : CmdWord) : Except Illegal Instr :=
  if payloadField w = 0 then .ok i else .error .payloadNotZero

/-- A format S word (R65, R71, R72). -/
def decodeS (w : CmdWord) : Except Illegal Instr :=
  if w.getLsbD 63 then .error .sampleReservedBit
  else if (timeField w).WellFormed then .ok (.sample (levelField w) (timeField w))
  else .error .nsecOutOfRange

/-- A format R word: bits 63:5 must be 0 (R66, R71). -/
def decodeR (w : CmdWord) : Except Illegal Instr :=
  if w.extractLsb' 5 59 = 0 then .ok (.rd (regField w)) else .error .rdReservedBits

/-- A format T word: bits 63:16 must be 0 (R67, R71). -/
def decodeT (w : CmdWord) : Except Illegal Instr :=
  if w.extractLsb' 16 48 = 0 then .ok (.rdt (idxField w)) else .error .rdtReservedBits

/-- The decoding procedure of R68. `error` is the spec's ILLEGAL. -/
def decode (w : CmdWord) : Except Illegal Instr :=
  match (opField w).toNat with
  | 0 => decodeZ .nop w
  | 1 => decodeZ .clear w
  | 2 => decodeS w
  | 3 => decodeZ .decode w
  | 4 => decodeZ .validate w
  | 5 => decodeR w
  | 6 => decodeT w
  | _ => .error .reservedOpcode

/-- The opcode of a command (R69). -/
def opcodeOf : Instr → BitVec 4
  | .nop => 0
  | .clear => 1
  | .sample _ _ => 2
  | .decode => 3
  | .validate => 4
  | .rd _ => 5
  | .rdt _ => 6

/-- The payload of a command: its fields, each at its place, and 0 in every reserved bit (R64 to R67). -/
def payloadOf : Instr → BitVec 64
  | .nop => 0
  | .clear => 0
  | .sample level t => (0#1 ++ BitVec.ofBool level) ++ (t.sec ++ t.nsec)
  | .decode => 0
  | .validate => 0
  | .rd reg => 0#59 ++ reg
  | .rdt idx => 0#48 ++ idx

/-- The word of a command (R63 to R67). -/
def encode (i : Instr) : CmdWord := opcodeOf i ++ payloadOf i

/-- The row of the opcode map a command belongs to, as R69 and spec/opcode_table.json give it. -/
def tableRow : Instr → TableRow
  | .nop => ⟨"NOP", .z, 0x00000000000000000, 0xFFFFFFFFFFFFFFFFF⟩
  | .clear => ⟨"CLEAR", .z, 0x10000000000000000, 0xFFFFFFFFFFFFFFFFF⟩
  | .sample _ _ => ⟨"SAMPLE", .s, 0x20000000000000000, 0xF8000000000000000⟩
  | .decode => ⟨"DECODE", .z, 0x30000000000000000, 0xFFFFFFFFFFFFFFFFF⟩
  | .validate => ⟨"VALIDATE", .z, 0x40000000000000000, 0xFFFFFFFFFFFFFFFFF⟩
  | .rd _ => ⟨"RD", .r, 0x50000000000000000, 0xFFFFFFFFFFFFFFFE0⟩
  | .rdt _ => ⟨"RDT", .t, 0x60000000000000000, 0xFFFFFFFFFFFFF0000⟩

/-- The word `w` is a candidate for the row: `w & mask = match` (R69). -/
def TableRow.candidate (r : TableRow) (w : CmdWord) : Bool := w &&& r.mask == r.pattern

/-- The opcode map of R69, in its order. -/
def opcodeMap : List TableRow :=
  [tableRow .nop, tableRow .clear, tableRow (.sample false ⟨0, 0⟩), tableRow .decode,
   tableRow .validate, tableRow (.rd 0), tableRow (.rdt 0)]

/-- The command word with the number `w` as the opcode table numbers its bits; `none` where the first
`nbits` bits of `w` are the number of no 68-bit word. -/
def tableWord (nbits w : Nat) : Option CmdWord :=
  if w % 2 ^ nbits < 2 ^ 68 then some (BitVec.ofNat 68 (w % 2 ^ nbits)) else none

/-- What the decoder reads from an instruction whose bits are `w` (the host's fixed name). A command is
one word of 68 bits that EDTR never splits (R50 item 4, R74), so its number is the word's. -/
def decodeTableWord (nbits w : Nat) : Option Instr :=
  match tableWord nbits w with
  | none => none
  | some cw => (decode cw).toOption

end Sys2Proof
end

