-- ==== Sys2Proof/Config.lean ====
section
/-! DEFINITION. The parameters of EDTR (spec/00_scope.md R7): what is fixed for one block and never
written by a command. `PREV_INIT` is the one point the spec leaves OPEN (R18, 41_capture.md R84). -/

namespace Sys2Proof

/-- `PREV_INIT`: what the first SAMPLE of an attempt is compared with (41_capture.md R84, D7, OPEN). -/
inductive PrevInit where
  /-- `NONE`: with nothing, so the first sample is always recorded. -/
  | none
  /-- `0`: with level 0. -/
  | zero
  /-- `1`: with level 1. -/
  | one
deriving DecidableEq, Repr

/-- The parameters a model takes as configuration (00_scope.md R7). -/
structure Config where
  /-- `BIT_CAP`, the capacity of the bit buffer. -/
  bitCap   : Nat
  /-- `THRESH_NS`, the classification threshold. -/
  threshNs : Nat
  /-- `DIAG_LO_NS`, the low end of the diagnostic band. -/
  diagLoNs : Nat
  /-- `DIAG_HI_NS`, the high end of the diagnostic band. -/
  diagHiNs : Nat
  /-- `TRANS_CAP`, the capacity of the transition buffer. -/
  transCap : Nat
  /-- `PREV_INIT`. -/
  prevInit : PrevInit
deriving DecidableEq, Repr

namespace Config

/-- `FRAME_BITS`, fixed at 40 (R7). -/
abbrev frameBits : Nat := 40

/-- The value column of R7, with `PREV_INIT = NONE`, the working value of 41_capture.md R84.
DESIGN CHOICE, log entry 2. -/
def default : Config where
  bitCap   := 42
  threshNs := 50000
  diagLoNs := 20000
  diagHiNs := 85000
  transCap := 13000
  prevInit := .none

/-- The range column of R7: every configuration a model must accept. -/
abbrev Legal (c : Config) : Prop :=
  (40 ≤ c.bitCap ∧ c.bitCap ≤ 64) ∧
  (1 ≤ c.threshNs ∧ c.threshNs ≤ 999999999) ∧
  (c.diagLoNs ≤ c.diagHiNs ∧ c.diagHiNs ≤ 999999999) ∧
  (2 ≤ c.transCap ∧ c.transCap ≤ 65536)

end Config

end Sys2Proof
end

