-- ==== Sys2Proof/Machine/State.lean ====
section
/-! DEFINITION. The state of EDTR (spec/10_state.md R20 to R31, spec/20_memory.md R45 to R48), grouped by
the unit of 00_scope.md R2 that writes it; the model's own view of the command and response ports
(30_encoding.md R60 to R62); the reset state (10_state.md R44); and the ways a step can stop. -/

namespace Sys2Proof.Machine

/-- `phase` (R22). The value 3 never occurs (R22, R43 item 9, 93_implementation_defined.md V5), so the
type has three values. -/
inductive Phase where
  /-- 0: an attempt is open. -/
  | capture
  /-- 1: the transitions of this attempt have been decoded. -/
  | decoded
  /-- 2: the validator has run. -/
  | done
deriving DecidableEq, Repr

/-- One slot of `TR`: a Transition `{valid, to, when}`, its level named `toLevel` (20_memory.md R45). -/
structure Slot where
  valid   : Bool
  toLevel : Level
  when    : Timestamp
deriving DecidableEq, Repr

/-- The empty slot: all 64 bits 0 (R46). -/
def Slot.empty : Slot := ⟨false, false, ⟨0, 0⟩⟩

/-- The contents of `TR` by slot index: the slots that are not empty, indexes rising. An index not listed
reads as the empty slot, which is what CLEAR and reset leave everywhere (R44, R47). It is the only
indexed memory of EDTR (R49). DESIGN CHOICE, log entry 6. -/
abbrev Memory := List (Nat × Slot)

/-- The state of EDR, the edge detector and recorder (R23 to R25). -/
structure Edr where
  prevValid : Bool
  prev      : Level
  tcount    : BitVec 17
  tr        : Memory
deriving DecidableEq, Repr

/-- The state of PWD, the pulse-width decoder (R26 to R28). `BITS[i]` is bit `i` of `bits`: at most 64
entries, and software reads them as that word (R37). -/
structure Pwd where
  bcount       : BitVec 7
  bits         : BitVec 64
  insufficient : Bool
  diagOob      : Bool
deriving DecidableEq, Repr

/-- `byte0` to `byte4`, the five bytes of the last window tested (R30). -/
structure Frame where
  byte0 : BitVec 8
  byte1 : BitVec 8
  byte2 : BitVec 8
  byte3 : BitVec 8
  byte4 : BitVec 8
deriving DecidableEq, Repr

/-- The state of FV, the frame validator (R29 to R31). -/
structure Fv where
  valOk    : Bool
  winStart : BitVec 8
  tries    : BitVec 8
  frame    : Frame
  hum      : BitVec 16
  temp     : BitVec 16
deriving DecidableEq, Repr

/-- What the environment does next at EDTR's ports: offer a command word (R60, R61) or pulse `rst`
(70_reset_and_hazards.md R125, R127). -/
inductive PortEvent where
  | command (w : CmdWord)
  | reset
deriving DecidableEq, Repr

/-- The five flags of FAULT (R34, 60_exceptions.md R109). -/
inductive FaultFlag where
  | trOvf | bitOvf | timeErr | seqErr | cmdErr
deriving DecidableEq, Repr

/-- The eight numbered read-only registers (R32). -/
inductive RegName where
  | status | fault | tcount | bcount | bitsr | frame | meas | win
deriving DecidableEq, Repr

/-- The state. `phase` to `fault` are R20's table, whole. `cfg` holds the parameters of R7, which no step
writes. `port`, `rsp` and `responses` are the model's view of the ports: the events still to come, the
response the last step offered (R62), and the ordered list of responses of the run (R19). DESIGN CHOICE,
log entries 1, 3 and 4. -/
structure State where
  cfg       : Config
  phase     : Phase
  edr       : Edr
  pwd       : Pwd
  fv        : Fv
  fault     : BitVec 5
  port      : List PortEvent
  rsp       : Option RegWord
  responses : List RegWord
deriving DecidableEq, Repr

/-- Why the machine stops. NO CONSTRUCTOR: EDTR never hangs and is never stuck (00_scope.md R17), and what
goes wrong sets a flag of FAULT and lets the next command be taken (60_exceptions.md R109). Nothing
raises a stop, which is neither safe nor unsafe: the spec gives every word an effect (R68). DEDUCED, log
entry 12. -/
inductive Fault where
deriving DecidableEq, Repr

/-- Why an instruction has no meaning here. -/
inductive Refusal where
  /-- The dispatcher's arm for an instruction the model does not yet give a meaning. Safe: nothing is
  claimed of the instruction. No arm raises it: all seven commands have their meaning. -/
  | notModelled (mnemonic : String)
deriving DecidableEq, Repr

/-- EDR after reset or CLEAR: the buffer empty, `prev_valid` and `prev` as `PREV_INIT` says
(R23, R44, 44_control_readout.md R103). -/
def Edr.cleared (c : Config) : Edr where
  prevValid := match c.prevInit with | .none => false | .zero => true | .one => true
  prev      := match c.prevInit with | .none => false | .zero => false | .one => true
  tcount    := 0
  tr        := []

/-- PWD after reset or CLEAR (R44). -/
def Pwd.cleared : Pwd := ⟨0, 0, false, false⟩

/-- FV after reset or CLEAR (R44). -/
def Fv.cleared : Fv := ⟨false, 0, 0, ⟨0, 0, 0, 0, 0⟩, 0, 0⟩

/-- The reset state of a block with parameters `c` (R44), with nothing offered at its command port. -/
def State.resetWith (c : Config) : State where
  cfg       := c
  phase     := .capture
  edr       := Edr.cleared c
  pwd       := Pwd.cleared
  fv        := Fv.cleared
  fault     := 0
  port      := []
  rsp       := none
  responses := []

/-- The machine right after reset, with the parameter values of 00_scope.md R7. -/
def State.reset : State := State.resetWith Config.default

end Sys2Proof.Machine
end

