-- ==== Sys2Proof/Machine/Flags.lean ====
section
/-! DEFINITION. Every flag computation of EDTR: the places of the FAULT flags (spec/10_state.md R34), the
attempt flags VALIDATE looks at (43_validate.md R100), `insufficient` (42_decode.md R92), the phase code
(10_state.md R22) and the level outputs (60_exceptions.md R116). -/

namespace Sys2Proof.Machine

/-- The bit of FAULT a flag stands at (R34). -/
def FaultFlag.bit : FaultFlag → Nat
  | .trOvf => 0
  | .bitOvf => 1
  | .timeErr => 2
  | .seqErr => 3
  | .cmdErr => 4

/-- FAULT with only this flag set. -/
def FaultFlag.mask : FaultFlag → BitVec 5
  | .trOvf => 0b00001
  | .bitOvf => 0b00010
  | .timeErr => 0b00100
  | .seqErr => 0b01000
  | .cmdErr => 0b10000

/-- Whether the flag is set in the state. -/
def State.flag (s : State) (f : FaultFlag) : Bool := s.fault.getLsbD f.bit

/-- FAULT[2:0], the flags of one attempt: TR_OVF, BIT_OVF, TIME_ERR (R109). -/
def State.attemptFlags (s : State) : BitVec 3 := s.fault.extractLsb' 0 3

/-- The value DECODE gives `insufficient`: 1 when `bcount < 40` (R92). -/
def insufficientOf (bcount : BitVec 7) : Bool := decide (bcount.toNat < Config.frameBits)

/-- The number of a phase (R22, STATUS bits 1:0). -/
def Phase.code : Phase → BitVec 2
  | .capture => 0
  | .decoded => 1
  | .done => 2

/-- The output `fault_o`: 1 when any bit of FAULT is 1 (R116). -/
def State.faultO (s : State) : Bool := s.fault != 0

/-- The output `done_o`: 1 when `phase = DONE` (R116). -/
def State.doneO (s : State) : Bool := s.phase == .done

/-- The output `ok_o`: `val_ok` (R116). -/
def State.okO (s : State) : Bool := s.fv.valOk

/-- The output `rsp_valid`: a response is offered (R60, R62). -/
def State.rspValid (s : State) : Bool := s.rsp.isSome

/-- The output `rsp_data`, which carries a value only while `rsp_valid = 1` (R62). -/
def State.rspData (s : State) : Option RegWord := s.rsp

/-- The input `cmd_valid`: the host offers a command word (R60). -/
def State.cmdValid (s : State) : Bool :=
  match s.port with
  | .command _ :: _ => true
  | _ => false

/-- The input `rst`: the environment resets the block next (R60, R125). -/
def State.rst (s : State) : Bool :=
  match s.port with
  | .reset :: _ => true
  | _ => false

/-- The output `cmd_ready`: between two atomic steps no command is in progress, so EDTR can take a word
unless it is in reset (R61, R125). -/
def State.cmdReady (s : State) : Bool := !s.rst

end Sys2Proof.Machine
end

