-- ==== Sys2Proof/Machine/Ops.lean ====
section
/-! DEFINITION. The named operations the commands share: the transition buffer (spec/20_memory.md R45 to
R47), the bit buffer (R48), setting and clearing fault flags, which is all of EDTR's taking of an
exception and leaving it (60_exceptions.md R109, R118, R119), and the response (00_scope.md R12). -/

namespace Sys2Proof.Machine

/-! ### The transition buffer -/

/-- The canonical form: indexes strictly rising, no empty slot listed. -/
abbrev Memory.wf (m : Memory) : Prop :=
  List.Pairwise (fun a b => a.1 < b.1) m ∧ ∀ p ∈ m, p.2 ≠ Slot.empty

/-- `TR[i]` (R12). An index not listed is empty. -/
def Memory.read : Memory → Nat → Slot
  | [], _ => Slot.empty
  | (k, v) :: m, i => if k = i then v else Memory.read m i

/-- The list with the slot `v` at `i` put before the entries `m`, unless `v` is empty. -/
def Memory.put (i : Nat) (v : Slot) (m : Memory) : Memory :=
  if v = Slot.empty then m else (i, v) :: m

/-- `TR[i] <- v` (R12): one whole slot; writing the empty slot removes the entry. -/
def Memory.write : Memory → Nat → Slot → Memory
  | [], i, v => Memory.put i v []
  | (k, u) :: m, i, v =>
    if i < k then Memory.put i v ((k, u) :: m)
    else if i = k then Memory.put i v m
    else (k, u) :: Memory.write m i v

/-- `TR[i]` of the state. -/
def State.slot (s : State) (i : Nat) : Slot := s.edr.tr.read i

/-- A slot as a 64-bit word `{valid, to, when.sec, when.nsec}` (R46). -/
def Slot.word (v : Slot) : RegWord :=
  (BitVec.ofBool v.valid ++ BitVec.ofBool v.toLevel) ++ (v.when.sec ++ v.when.nsec)

/-- SAMPLE's record: `TR[tcount] <- {1, level, t}; tcount <- tcount + 1` (41_capture.md R83). -/
def recordTransition (level : Level) (t : Timestamp) (s : State) : State :=
  { s with edr := { s.edr with
      tr     := s.edr.tr.write s.edr.tcount.toNat ⟨true, level, t⟩
      tcount := s.edr.tcount + 1 } }

/-! ### The bit buffer -/

/-- A word with the bits of the entries `0` to `BIT_CAP - 1` set. -/
def bitsMask (c : Config) : BitVec 64 := BitVec.ofNat 64 (2 ^ c.bitCap - 1)

/-- The whole bit buffer as BITSR shows it: bits `63:BIT_CAP` are zero (10_state.md R37). -/
def State.bitsWord (s : State) : RegWord := s.pwd.bits &&& bitsMask s.cfg

/-- `BITS[i]` (R12, R48). -/
def State.bit (s : State) (i : Nat) : Bool := s.bitsWord.getLsbD i

/-- The buffer with entry `i` set to `b`. -/
def writeBit (bits : BitVec 64) (i : Nat) (b : Bool) : BitVec 64 :=
  if b then bits ||| BitVec.twoPow 64 i else bits &&& ~~~ BitVec.twoPow 64 i

/-! ### Fault flags: entry and return -/

/-- `raise F`: set the sticky flag to 1; nothing is saved, no mode or control changes
(00_scope.md R12, 60_exceptions.md R109, R118). -/
def raise (f : FaultFlag) (s : State) : State := { s with fault := s.fault ||| f.mask }

/-- Leaving the faults of an attempt: FAULT[2:0] <- 0, FAULT[4:3] kept (60_exceptions.md R109, R119). -/
def clearAttemptFlags (s : State) : State := { s with fault := s.fault &&& 0b11000 }

/-- Appending a decoded bit: stored at `BITS[bcount]` while there is room, else dropped with BIT_OVF
(42_decode.md R90). -/
def appendBit (b : Bool) (s : State) : State :=
  if s.pwd.bcount.toNat < s.cfg.bitCap then
    { s with pwd := { s.pwd with
        bits   := writeBit s.pwd.bits s.pwd.bcount.toNat b
        bcount := s.pwd.bcount + 1 } }
  else raise .bitOvf s

/-! ### The response -/

/-- `respond(v)`: put `v` on the response port; it is the next of the run's responses
(00_scope.md R12, R19, 30_encoding.md R62). -/
def respond (v : RegWord) (s : State) : State :=
  { s with rsp := some v, responses := s.responses ++ [v] }

end Sys2Proof.Machine
end

