-- ==== Sys2Proof/Machine/Capture.lean ====
section
/-! DEFINITION. Capture family: SAMPLE, the edge detector and recorder EDR (spec/41_capture.md R83 to
R86). -/

namespace Sys2Proof.Machine

/-- The sample is an edge: `prev_valid = 0` or `level != prev` (R83, R84). -/
def isEdge (level : Level) (s : State) : Bool := !s.edr.prevValid || level != s.edr.prev

/-- What an edge does: it is recorded in the next free slot, or sets TR_OVF when there is none
(R83, R85). -/
def captureEdge (level : Level) (t : Timestamp) (s : State) : State :=
  if s.edr.tcount.toNat < s.cfg.transCap then recordTransition level t s else raise .trOvf s

/-- `prev <- level; prev_valid <- 1` (R83). -/
def setPrev (level : Level) (s : State) : State :=
  { s with edr := { s.edr with prev := level, prevValid := true } }

/-- SAMPLE (R83). -/
def execSample (level : Level) (t : Timestamp) (s : State) : Host.Outcome State Fault Refusal :=
  if s.phase = .capture then
    .next (setPrev level (if isEdge level s then captureEdge level t s else s))
  else .next (raise .seqErr s)

end Sys2Proof.Machine
end

