-- ==== Sys2Proof/Machine/Operands.lean ====
section
/-! DEFINITION. The operands of the read commands: the register number of RD and the eight registers it
can name, each as a view of the state (spec/10_state.md R32 to R40), and the slot index of RDT
(44_control_readout.md R105). -/

namespace Sys2Proof.Machine

/-- The register a number names; 8 to 31 are reserved (R32). -/
def RegName.ofNumber (reg : BitVec 5) : Option RegName :=
  match reg.toNat with
  | 0 => some .status
  | 1 => some .fault
  | 2 => some .tcount
  | 3 => some .bcount
  | 4 => some .bitsr
  | 5 => some .frame
  | 6 => some .meas
  | 7 => some .win
  | _ => none

/-- STATUS: `phase` in bits 1:0, then `insufficient`, `val_ok`, `diag_oob`, `prev_valid`, `prev` in bits 2
to 6 (R33). -/
def statusWord (s : State) : RegWord :=
  0#57 ++ (BitVec.ofBool s.edr.prev ++ (BitVec.ofBool s.edr.prevValid ++
    (BitVec.ofBool s.pwd.diagOob ++ (BitVec.ofBool s.fv.valOk ++
      (BitVec.ofBool s.pwd.insufficient ++ s.phase.code)))))

/-- FAULT: the five flags in bits 4:0 (R34). -/
def faultWord (s : State) : RegWord := s.fault.setWidth 64

/-- TCOUNT: `tcount` in bits 16:0 (R35). -/
def tcountWord (s : State) : RegWord := s.edr.tcount.setWidth 64

/-- BCOUNT: `bcount` in bits 6:0 (R36). -/
def bcountWord (s : State) : RegWord := s.pwd.bcount.setWidth 64

/-- FRAME: `byte0` in bits 39:32 down to `byte4` in bits 7:0 (R38). -/
def frameWord (s : State) : RegWord :=
  0#24 ++ (s.fv.frame.byte0 ++ (s.fv.frame.byte1 ++ (s.fv.frame.byte2 ++
    (s.fv.frame.byte3 ++ s.fv.frame.byte4))))

/-- MEAS: `hum` in bits 31:16, `temp` in bits 15:0 (R39). -/
def measWord (s : State) : RegWord := 0#32 ++ (s.fv.hum ++ s.fv.temp)

/-- WIN: `win_start` in bits 7:0, `tries` in bits 15:8 (R40). -/
def winWord (s : State) : RegWord := 0#48 ++ (s.fv.tries ++ s.fv.winStart)

/-- `x[reg]`, the value of a numbered register (R32, 00_scope.md R12). -/
def readReg : RegName → State → RegWord
  | .status, s => statusWord s
  | .fault, s => faultWord s
  | .tcount, s => tcountWord s
  | .bcount, s => bcountWord s
  | .bitsr, s => s.bitsWord
  | .frame, s => frameWord s
  | .meas, s => measWord s
  | .win, s => winWord s

/-- The slot an index names, as a word; an index of `TRANS_CAP` or more names none (R105). -/
def readSlot (idx : BitVec 16) (s : State) : Option RegWord :=
  if idx.toNat < s.cfg.transCap then some (s.slot idx.toNat).word else none

end Sys2Proof.Machine
end

