-- ==== Sys2Proof/Machine/Control.lean ====
section
/-! DEFINITION. Control and read-out family: NOP, CLEAR, RD, RDT, and the execution of an ILLEGAL word
(spec/44_control_readout.md R102 to R106). -/

namespace Sys2Proof.Machine

/-- NOP: nothing (R102). -/
def execNop (s : State) : Host.Outcome State Fault Refusal := .next s

/-- CLEAR: everything to its reset value but FAULT[4:3] (R103). -/
def execClear (s : State) : Host.Outcome State Fault Refusal :=
  .next (clearAttemptFlags { s with
    phase := .capture
    edr   := Edr.cleared s.cfg
    pwd   := Pwd.cleared
    fv    := Fv.cleared })

/-- RD: one response, the register's value, or 0 with CMD_ERR for a reserved number (R104). -/
def execRd (reg : BitVec 5) (s : State) : Host.Outcome State Fault Refusal :=
  match RegName.ofNumber reg with
  | some r => .next (respond (readReg r s) s)
  | none => .next (respond 0 (raise .cmdErr s))

/-- RDT: one response, the slot's word, or 0 with CMD_ERR for an index out of range (R105). -/
def execRdt (idx : BitVec 16) (s : State) : Host.Outcome State Fault Refusal :=
  match readSlot idx s with
  | some w => .next (respond w s)
  | none => .next (respond 0 (raise .cmdErr s))

/-- An ILLEGAL word: CMD_ERR and nothing else (R106). -/
def execIllegal (s : State) : Host.Outcome State Fault Refusal := .next (raise .cmdErr s)

end Sys2Proof.Machine
end

