-- ==== Sys2Proof/Machine/Duration.lean ====
section
/-! DEFINITION. DUR, the duration unit: `DIFF` (spec/40_duration.md R78, R80), comparison of a duration
with a constant (R81), and the two tests DECODE makes of a duration (42_decode.md R88, R89). -/

namespace Sys2Proof.Machine

/-- `ns(t)`, a timestamp as a number of nanoseconds: a mathematical value, no register (00_scope.md R11). -/
def timeNs (t : Timestamp) : Nat := t.sec.toNat * nsPerSec + t.nsec.toNat

/-- `dns(d)`, a duration as a number of nanoseconds (R77). -/
def durNs (d : Duration) : Nat := d.dsec.toNat * nsPerSec + d.dnsec.toNat

/-- `b` is earlier than `a`, as the first test of R78 puts it. -/
def earlier (b a : Timestamp) : Bool :=
  decide (b.sec.toNat < a.sec.toNat) || (b.sec == a.sec && decide (b.nsec.toNat < a.nsec.toNat))

/-- `DIFF(a, b)`, from the earlier timestamp `a` to the later `b`; `none` is the spec's `ERR` (R78, R80).
The borrow is computed in full width before it is cut to 30 bits (R82). On timestamps that are not
well-formed: DESIGN CHOICE, log entry 8. -/
def diff (a b : Timestamp) : Option Duration :=
  if earlier b a then none
  else if b.nsec.toNat < a.nsec.toNat then
    some ⟨b.sec - a.sec - 1, BitVec.ofNat 30 (b.nsec.toNat + nsPerSec - a.nsec.toNat)⟩
  else some ⟨b.sec - a.sec, b.nsec - a.nsec⟩

/-- `d < K` for a constant `K` below one second: `dsec = 0` and `dnsec < K` (R81). -/
def durBelow (d : Duration) (k : Nat) : Bool := d.dsec == 0 && decide (d.dnsec.toNat < k)

/-- `d > K` for a constant `K` below one second: `dsec > 0` or `dnsec > K` (R81). -/
def durAbove (d : Duration) (k : Nat) : Bool := d.dsec != 0 || decide (k < d.dnsec.toNat)

/-- `CLASSIFY(d)`: bit 0 when `d < THRESH_NS`, else bit 1 (R88). -/
def classify (c : Config) (d : Duration) : Bool := !durBelow d c.threshNs

/-- `OUT_OF_BAND(d)`: `d < DIAG_LO_NS` or `d > DIAG_HI_NS` (R89). -/
def outOfBand (c : Config) (d : Duration) : Bool := durBelow d c.diagLoNs || durAbove d c.diagHiNs

end Sys2Proof.Machine
end

