-- ==== Sys2Proof/Machine/PulseDecode.lean ====
section
/-! DEFINITION. Decode family: DECODE, the pulse-width decoder PWD (spec/42_decode.md R87 to R93). -/

namespace Sys2Proof.Machine

/-- `if OUT_OF_BAND(d): diag_oob <- 1`; never cleared here (R89, 10_state.md R28). -/
def flagBand (d : Duration) (s : State) : State :=
  { s with pwd := { s.pwd with diagOob := s.pwd.diagOob || outOfBand s.cfg d } }

/-- The body of DECODE's loop for the valid slot `i`: TIME_ERR and no bit when it is stamped earlier than
the slot before it, one bit when it is a transition to 0 (R87, R91). -/
def decodeSlot (i : Nat) (s : State) : State :=
  match diff (s.slot (i - 1)).when (s.slot i).when with
  | none => raise .timeErr s
  | some d =>
    if (s.slot i).toLevel = false then appendBit (classify s.cfg d) (flagBand d s) else s

/-- DECODE's loop over `n` slots from `i` on; it stops at the first slot that is not valid (R87). -/
def decodeLoop : Nat → Nat → State → State
  | 0, _, s => s
  | n + 1, i, s => if (s.slot i).valid then decodeLoop n (i + 1) (decodeSlot i s) else s

/-- The end of DECODE: `insufficient` and the phase (R92). -/
def finishDecode (s : State) : State :=
  { s with pwd := { s.pwd with insufficient := insufficientOf s.pwd.bcount }, phase := .decoded }

/-- DECODE (R87): slots 1 to `TRANS_CAP - 1`. -/
def execDecode (s : State) : Host.Outcome State Fault Refusal :=
  if s.phase = .capture then .next (finishDecode (decodeLoop (s.cfg.transCap - 1) 1 s))
  else .next (raise .seqErr s)

end Sys2Proof.Machine
end

