-- ==== Sys2Proof/Machine/Validate.lean ====
section
/-! DEFINITION. Validate family: VALIDATE, the frame validator FV (spec/43_validate.md R94 to R101). -/

namespace Sys2Proof.Machine

/-- The byte made of the eight bits from `BITS[a]` on, the first the most significant (R96). -/
def packByte (s : State) (a : Nat) : BitVec 8 :=
  BitVec.ofBool (s.bit a) ++ (BitVec.ofBool (s.bit (a + 1)) ++ (BitVec.ofBool (s.bit (a + 2)) ++
    (BitVec.ofBool (s.bit (a + 3)) ++ (BitVec.ofBool (s.bit (a + 4)) ++
      (BitVec.ofBool (s.bit (a + 5)) ++ (BitVec.ofBool (s.bit (a + 6)) ++
        BitVec.ofBool (s.bit (a + 7))))))))

/-- The five bytes of the window that starts at `start` (R96). -/
def packWindow (s : State) (start : Nat) : Frame where
  byte0 := packByte s start
  byte1 := packByte s (start + 8)
  byte2 := packByte s (start + 16)
  byte3 := packByte s (start + 24)
  byte4 := packByte s (start + 32)

/-- The sum of the four data bytes, reduced to 8 bits (R97). -/
def Frame.checksum (f : Frame) : BitVec 8 := f.byte0 + f.byte1 + f.byte2 + f.byte3

/-- The window passes: its checksum equals `byte4` (R97). -/
def Frame.passes (f : Frame) : Bool := f.checksum == f.byte4

/-- One try of the search: the bytes and `tries` are written, and on a pass the results too
(R94, R98). -/
def testWindow (start : Nat) (f : Frame) (v : Fv) : Fv :=
  if f.passes then
    { valOk := true, winStart := BitVec.ofNat 8 start, tries := v.tries + 1, frame := f,
      hum := f.byte0 ++ f.byte1, temp := f.byte2 ++ f.byte3 }
  else { v with tries := v.tries + 1, frame := f }

/-- The search over the prefix of `BITS` of length `e`: its last 40 bits are tested, and on a failure the
prefix loses one bit, while at least 40 remain and no window has passed (R94, R95). -/
def searchWindows (s : State) : Nat → Fv → Fv
  | 0, v => v
  | e + 1, v =>
    if Config.frameBits ≤ e + 1 ∧ v.valOk = false then
      searchWindows s e (testWindow (e + 1 - Config.frameBits) (packWindow s (e + 1 - Config.frameBits)) v)
    else v

/-- VALIDATE (R94): no window is tested when a flag of the attempt is set (R100). -/
def execValidate (s : State) : Host.Outcome State Fault Refusal :=
  if s.phase = .decoded then
    .next { s with
      fv := if s.attemptFlags = 0 then searchWindows s s.pwd.bcount.toNat s.fv else s.fv
      phase := .done }
  else .next (raise .seqErr s)

end Sys2Proof.Machine
end

