-- ==== Sys2Proof/Machine/Dispatch.lean ====
section
/-! DEFINITION. The meaning of a decoded command: one arm per constructor of Instr. -/

namespace Sys2Proof.Machine

/-- The effect of a decoded command (00_scope.md R13). -/
def exec (i : Instr) (s : State) : Host.Outcome State Fault Refusal :=
  match i with
  | .nop => Sys2Proof.Machine.execNop s
  | .clear => Sys2Proof.Machine.execClear s
  | .sample level t => Sys2Proof.Machine.execSample level t s
  | .decode => Sys2Proof.Machine.execDecode s
  | .validate => Sys2Proof.Machine.execValidate s
  | .rd reg => Sys2Proof.Machine.execRd reg s
  | .rdt idx => Sys2Proof.Machine.execRdt idx s

end Sys2Proof.Machine
end

