-- ==== Sys2Proof/Machine/Port.lean ====
section
/-! DEFINITION. What happens at the command port in one atomic step: a word is taken and run, the block
is reset, or it idles (spec/00_scope.md R13, R15; 30_encoding.md R61, R62; 70_reset_and_hazards.md R125 to
R127). -/

namespace Sys2Proof.Machine

/-- A response is offered for one clock cycle, so none stands when the next step begins (R62). -/
def endResponse (s : State) : State := { s with rsp := none }

/-- The handshake: the offered word is taken, and the events after it are still to come (R61). -/
def takeCommand (rest : List PortEvent) (s : State) : State := endResponse { s with port := rest }

/-- Running one command word: its command, or the ILLEGAL effect (30_encoding.md R68, R106). -/
def runWord (w : CmdWord) (s : State) : Host.Outcome State Fault Refusal :=
  match decode w with
  | .ok i => exec i s
  | .error _ => execIllegal s

/-- Reset is a step of its own: every piece of state takes its reset value (R125, R127). The events still
to come and the record of earlier responses belong to the environment (DESIGN CHOICE, log entry 13). -/
def takeReset (rest : List PortEvent) (s : State) : State :=
  { State.resetWith s.cfg with port := rest, responses := s.responses }

/-- Nothing is offered: EDTR is idle and loses no state (60_exceptions.md R124). DESIGN CHOICE, log
entry 5. -/
def idle (s : State) : State := endResponse s

/-- The host offers these command words, after the events already to come. -/
def State.offer (ws : List CmdWord) (s : State) : State :=
  { s with port := s.port ++ ws.map .command }

end Sys2Proof.Machine
end

