-- ==== Sys2Proof/Machine/Step.lean ====
section
/-! DEFINITION. One step of EDTR: one command, one reset, or one idle cycle (spec/00_scope.md R13,
R15). -/

namespace Sys2Proof.Machine

/-- One step. -/
def step (s : State) : Host.Outcome State Fault Refusal :=
  match s.port with
  | [] => .next (idle s)
  | .reset :: rest => .next (takeReset rest s)
  | .command w :: rest => runWord w (takeCommand rest s)

/-- The state with the instruction whose bits are `w` offered first at the command port, so that the next
step takes and runs it (the host's fixed name). `cmd_word` has 68 bits (R60). DESIGN CHOICE, log
entries 3 and 11. -/
def State.withFetchWord (s : State) (nbits w : Nat) : State :=
  { s with port := .command (BitVec.ofNat 68 (w % 2 ^ nbits)) :: s.port }

end Sys2Proof.Machine
end

