-- ==== Sys2Proof/Machine/Assembler.lean ====
section
/-! DEFINITION. The assembler notation of spec/30_encoding.md R75 and its pseudo-instruction `SMP` (R76):
from the characters of a line to the command words it stands for. Details R75 leaves open: DESIGN CHOICE, log
entry 10. -/

namespace Sys2Proof.Machine

/-- What one line of a program says (R75, R76). -/
inductive AsmLine where
  /-- An empty line or a comment: no command. -/
  | blank
  /-- One of the seven mnemonics with its operands. -/
  | instr (i : Instr)
  /-- `SMP level, t`, `t` in nanoseconds. -/
  | smp (level : Level) (t : Nat)
  /-- `WORD h`, the word itself, whatever it decodes to. -/
  | word (w : CmdWord)
deriving DecidableEq, Repr

/-- `SMP level, t` stands for `SAMPLE level, t div 1000000000, t mod 1000000000` (R76). -/
def smpInstr (level : Level) (t : Nat) : Instr :=
  .sample level ⟨BitVec.ofNat 32 (t / nsPerSec), BitVec.ofNat 30 (t % nsPerSec)⟩

/-- The words of a line: one, or none for a blank line. -/
def AsmLine.words : AsmLine → List CmdWord
  | .blank => []
  | .instr i => [encode i]
  | .smp level t => [encode (smpInstr level t)]
  | .word w => [w]

/-! ### Reading a line -/

/-- The value of a digit in a base up to 16. -/
def digitValue (base : Nat) (c : Char) : Option Nat :=
  let n := c.toNat
  let v := if 48 ≤ n ∧ n ≤ 57 then n - 48
    else if 65 ≤ n ∧ n ≤ 70 then n - 55
    else if 97 ≤ n ∧ n ≤ 102 then n - 87
    else 16
  if v < base then some v else none

/-- The number written by digits, after the digits read so far. -/
def digitsFrom (base : Nat) : Nat → List Char → Option Nat
  | acc, [] => some acc
  | acc, c :: cs =>
    match digitValue base c with
    | some d => digitsFrom base (acc * base + d) cs
    | none => none

/-- A number in decimal or `0x` hexadecimal (R75). -/
def parseNumber : List Char → Option Nat
  | [] => none
  | '0' :: 'x' :: c :: cs => digitsFrom 16 0 (c :: cs)
  | c :: cs => digitsFrom 10 0 (c :: cs)

/-- A number below a bound. -/
def parseBelow (bound : Nat) (cs : List Char) : Option Nat :=
  match parseNumber cs with
  | some n => if n < bound then some n else none
  | none => none

/-- A level: 0 or 1. -/
def parseLevel (cs : List Char) : Option Level :=
  match parseBelow 2 cs with
  | some n => some (n == 1)
  | none => none

/-- The names an RD may use for the numbers 0 to 7 (R75). -/
def registerNames : List (List Char × Nat) :=
  [("STATUS".toList, 0), ("FAULT".toList, 1), ("TCOUNT".toList, 2), ("BCOUNT".toList, 3),
   ("BITSR".toList, 4), ("FRAME".toList, 5), ("MEAS".toList, 6), ("WIN".toList, 7)]

/-- The register operand of RD: a name or a number 0 to 31. -/
def parseRegister (cs : List Char) : Option (BitVec 5) :=
  match registerNames.lookup cs with
  | some n => some (BitVec.ofNat 5 n)
  | none =>
    match parseBelow 32 cs with
    | some n => some (BitVec.ofNat 5 n)
    | none => none

/-- White space within a line. -/
def isBlank (c : Char) : Bool := c == ' ' || c == '\t' || c == '\r'

/-- The characters without white space at either end. -/
def trim (cs : List Char) : List Char :=
  ((cs.dropWhile isBlank).reverse.dropWhile isBlank).reverse

/-- The parts between commas, each trimmed. -/
def splitCommas (cs : List Char) : List (List Char) :=
  (go cs).map trim
where
  go : List Char → List (List Char)
    | [] => [[]]
    | c :: cs =>
      if c = ',' then [] :: go cs
      else
        match go cs with
        | [] => [[c]]
        | p :: ps => (c :: p) :: ps

/-- The operand of `WORD`: 17 hexadecimal digits (R75). -/
def parseWord (cs : List Char) : Option CmdWord :=
  if cs.length = 17 then
    match digitsFrom 16 0 cs with
    | some n => some (BitVec.ofNat 68 n)
    | none => none
  else none

/-- `SAMPLE level, sec, nsec` with the three fields of R65. -/
def parseSample (level sec nsec : List Char) : Option AsmLine :=
  match parseLevel level, parseBelow (2 ^ 32) sec, parseBelow nsPerSec nsec with
  | some l, some a, some b => some (.instr (.sample l ⟨BitVec.ofNat 32 a, BitVec.ofNat 30 b⟩))
  | _, _, _ => none

/-- A mnemonic with its operands (R75, R76). -/
def parseCommand (mnemonic : List Char) (operands : List (List Char)) : Option AsmLine :=
  match operands with
  | [] =>
    if mnemonic = "NOP".toList then some (.instr .nop)
    else if mnemonic = "CLEAR".toList then some (.instr .clear)
    else if mnemonic = "DECODE".toList then some (.instr .decode)
    else if mnemonic = "VALIDATE".toList then some (.instr .validate)
    else none
  | [a] =>
    if mnemonic = "RD".toList then (parseRegister a).map fun r => .instr (.rd r)
    else if mnemonic = "RDT".toList then
      (parseBelow 65536 a).map fun n => .instr (.rdt (BitVec.ofNat 16 n))
    else if mnemonic = "WORD".toList then (parseWord a).map .word
    else none
  | [a, b] =>
    if mnemonic = "SMP".toList then
      match parseLevel a, parseBelow (2 ^ 32 * nsPerSec) b with
      | some l, some t => some (.smp l t)
      | _, _ => none
    else none
  | [a, b, c] => if mnemonic = "SAMPLE".toList then parseSample a b c else none
  | _ => none

/-- One line: a comment runs from `;` to its end (R75). `none`: the line is not in the notation. -/
def parseLine (line : List Char) : Option AsmLine :=
  let text := trim (line.takeWhile (fun c => !(c == ';')))
  if text = [] then some .blank
  else
    let mnemonic := text.takeWhile (fun c => !isBlank c)
    let rest := trim (text.dropWhile (fun c => !isBlank c))
    parseCommand mnemonic (if rest = [] then [] else splitCommas rest)

/-- The words of a program, a list of lines executed top to bottom (R75). -/
def assemble : List (List Char) → Option (List CmdWord)
  | [] => some []
  | line :: lines =>
    match parseLine line, assemble lines with
    | some l, some ws => some (l.words ++ ws)
    | _, _ => none

end Sys2Proof.Machine
end

