-- ==== Sys2Proof/Safety.lean ====
section
/-! DEFINITION. The terms the claims use: the invariants of spec/10_state.md R43, a run from reset with any
sequence of port events (00_scope.md R19), and what DECODE and VALIDATE compute, said once more without
their loops (42_decode.md R87 to R91, 43_validate.md R95 to R97). -/

namespace Sys2Proof.Machine

/-! ### The invariant -/

/-- The invariant of R43, item by item, with what it needs to be kept by a step: a legal configuration
(00_scope.md R7), the canonical form of `TR`, and that `prev` is the level of the last recorded
transition while there is room (R23). R43 item 9 holds by the type of `phase`. -/
structure Inv (s : State) : Prop where
  cfgLegal : s.cfg.Legal
  trCanonical : s.edr.tr.wf
  /-- Item 1. -/
  tcountBound : s.edr.tcount.toNat ≤ s.cfg.transCap
  trFilled : ∀ i, i < s.edr.tcount.toNat → (s.slot i).valid = true
  trEmpty : ∀ i, s.edr.tcount.toNat ≤ i → s.slot i = Slot.empty
  /-- Item 2. -/
  trAlternates : ∀ i, 1 ≤ i → i < s.edr.tcount.toNat → (s.slot i).toLevel ≠ (s.slot (i - 1)).toLevel
  prevTracks : 0 < s.edr.tcount.toNat → s.edr.prevValid = true ∧
    (s.edr.tcount.toNat < s.cfg.transCap → s.edr.prev = (s.slot (s.edr.tcount.toNat - 1)).toLevel)
  /-- Item 3. -/
  trStamps : ∀ i, i < s.edr.tcount.toNat → (s.slot i).when.WellFormed
  /-- Item 4. -/
  bcountBound : s.pwd.bcount.toNat ≤ s.cfg.bitCap
  bitsEmpty : ∀ i, s.pwd.bcount.toNat ≤ i → s.pwd.bits.getLsbD i = false
  /-- Item 5. -/
  captureClean : s.phase = .capture → s.pwd = Pwd.cleared ∧ s.fault.extractLsb' 1 2 = 0 ∧
    s.fv = Fv.cleared
  /-- Item 6. -/
  decodedClean : s.phase = .decoded → s.fv = Fv.cleared ∧
    s.pwd.insufficient = decide (s.pwd.bcount.toNat < 40)
  /-- Item 7. -/
  okImplies : s.fv.valOk = true → s.phase = .done ∧ s.attemptFlags = 0 ∧
    40 ≤ s.pwd.bcount.toNat ∧ s.fv.winStart.toNat ≤ s.pwd.bcount.toNat - 40 ∧
    (s.fv.frame.byte0.toNat + s.fv.frame.byte1.toNat + s.fv.frame.byte2.toNat +
      s.fv.frame.byte3.toNat) % 256 = s.fv.frame.byte4.toNat ∧
    s.fv.hum.toNat = s.fv.frame.byte0.toNat * 256 + s.fv.frame.byte1.toNat ∧
    s.fv.temp.toNat = s.fv.frame.byte2.toNat * 256 + s.fv.frame.byte3.toNat
  /-- Item 8. -/
  notOkZero : s.fv.valOk = false → s.fv.hum = 0 ∧ s.fv.temp = 0 ∧ s.fv.winStart = 0

/-! ### Runs -/

/-- The reset state of a block with parameters `c`, with these events to come at its ports. -/
def State.offered (c : Config) (events : List PortEvent) : State :=
  { State.resetWith c with port := events }

/-- The state is reached from reset by some finite sequence of port events (R19). -/
def Reachable (s : State) : Prop :=
  ∃ (c : Config) (events : List PortEvent) (k : Nat),
    c.Legal ∧ Sys2Proof.core.run k (State.offered c events) = .next s

/-- The Measurement: `hum` and `temp`, only when `val_ok = 1` (70_reset_and_hazards.md R136). -/
def State.measurement (s : State) : Option (BitVec 16 × BitVec 16) :=
  if s.fv.valOk then some (s.fv.hum, s.fv.temp) else none

/-! ### The phase table -/

/-- The phase after a command issued in a phase: the table of 44_control_readout.md R108, row by row. -/
def nextPhase : Phase → Instr → Phase
  | .capture, .nop => .capture
  | .capture, .clear => .capture
  | .capture, .sample _ _ => .capture
  | .capture, .decode => .decoded
  | .capture, .validate => .capture
  | .capture, .rd _ => .capture
  | .capture, .rdt _ => .capture
  | .decoded, .nop => .decoded
  | .decoded, .clear => .capture
  | .decoded, .sample _ _ => .decoded
  | .decoded, .decode => .decoded
  | .decoded, .validate => .done
  | .decoded, .rd _ => .decoded
  | .decoded, .rdt _ => .decoded
  | .done, .nop => .done
  | .done, .clear => .capture
  | .done, .sample _ _ => .done
  | .done, .decode => .done
  | .done, .validate => .done
  | .done, .rd _ => .done
  | .done, .rdt _ => .done

/-- The cells marked SEQ in the table of R108: the phase does not accept the command (R107). -/
def outOfPhase : Phase → Instr → Bool
  | .capture, .validate => true
  | .decoded, .sample _ _ => true
  | .decoded, .decode => true
  | .done, .sample _ _ => true
  | .done, .decode => true
  | .done, .validate => true
  | _, _ => false

/-! ### What DECODE computes, without its loop -/

/-- The time of slot `i` in nanoseconds. -/
abbrev slotNs (s : State) (i : Nat) : Nat := timeNs (s.slot i).when

/-- The bit slot `i` yields: none for a transition to 1 or a stamp earlier than the one before, else 0
when the time since slot `i - 1` is below the threshold and 1 when it is not (R87, R88, R91). -/
def yieldedBit (s : State) (i : Nat) : Option Bool :=
  if (s.slot i).toLevel = false ∧ slotNs s (i - 1) ≤ slotNs s i then
    some (decide (s.cfg.threshNs ≤ slotNs s i - slotNs s (i - 1)))
  else none

/-- The bits the recorded transitions yield, in order, before the capacity is looked at; slot 0 yields
none (R87). -/
def yieldedBits (s : State) : List Bool :=
  (List.range' 1 (s.edr.tcount.toNat - 1)).filterMap (yieldedBit s)

/-- Slot `i` is stamped earlier than the slot before it (R91). -/
def stampedEarlier (s : State) (i : Nat) : Prop := slotNs s i < slotNs s (i - 1)

/-- Slot `i` is classified with a time outside the diagnostic band (R89). -/
def outsideBand (s : State) (i : Nat) : Prop :=
  (s.slot i).toLevel = false ∧ slotNs s (i - 1) ≤ slotNs s i ∧
    (slotNs s i - slotNs s (i - 1) < s.cfg.diagLoNs ∨ s.cfg.diagHiNs < slotNs s i - slotNs s (i - 1))

/-! ### What VALIDATE computes, without its loop -/

/-- Byte `j` of the window that starts at `a`, as the sum R96 writes. -/
def windowByte (s : State) (a j : Nat) : Nat :=
  (s.bit (a + 8 * j)).toNat * 128 + (s.bit (a + 8 * j + 1)).toNat * 64 +
    (s.bit (a + 8 * j + 2)).toNat * 32 + (s.bit (a + 8 * j + 3)).toNat * 16 +
    (s.bit (a + 8 * j + 4)).toNat * 8 + (s.bit (a + 8 * j + 5)).toNat * 4 +
    (s.bit (a + 8 * j + 6)).toNat * 2 + (s.bit (a + 8 * j + 7)).toNat

/-- The window that starts at `a` lies within the decoded bits and its checksum matches (R95, R97). -/
def windowPasses (s : State) (a : Nat) : Prop :=
  a + 40 ≤ s.pwd.bcount.toNat ∧
    (windowByte s a 0 + windowByte s a 1 + windowByte s a 2 + windowByte s a 3) % 256 =
      windowByte s a 4

/-- The frame register holds the bytes of the window that starts at `a`. -/
def holdsWindow (v : Fv) (s : State) (a : Nat) : Prop :=
  v.frame.byte0.toNat = windowByte s a 0 ∧ v.frame.byte1.toNat = windowByte s a 1 ∧
    v.frame.byte2.toNat = windowByte s a 2 ∧ v.frame.byte3.toNat = windowByte s a 3 ∧
    v.frame.byte4.toNat = windowByte s a 4

end Sys2Proof.Machine
end

