-- ==== Sys2Proof/Certificates/Slice0/Obligations.lean ====
section
/-! DEFINITION. The statements for the provers: what the numbered rules of spec/ say of EDTR, over every
state, operand and legal configuration (spec/00_scope.md R7, R18). Each docstring names its rules. -/

open Sys2Proof Sys2Proof.Machine

/-! ### Words and commands (30_encoding.md) -/

/-- Words written out bit by bit from the formats R64 to R67 decode to the commands they stand for, and
words with a reserved opcode, a bit set in a reserved field of each format, or an ill-formed time do not
(R70 to R72). The reasons named for ILLEGAL are the model's own split of the spec's one ILLEGAL (log entry
12). -/
def Obligations.SpecWordsDecode : Prop :=
  decode 0x00000000000000000#68 = .ok .nop ∧
  decode 0x10000000000000000#68 = .ok .clear ∧
  decode 0x2400000004000C350#68 = .ok (.sample true ⟨1, 50000⟩) ∧
  decode 0x27FFFFFFFFB9AC9FF#68 = .ok (.sample true ⟨4294967295, 999999999⟩) ∧
  decode 0x30000000000000000#68 = .ok .decode ∧
  decode 0x40000000000000000#68 = .ok .validate ∧
  decode 0x50000000000000007#68 = .ok (.rd 7) ∧
  decode 0x600000000000032C7#68 = .ok (.rdt 12999) ∧
  decode 0x70000000000000000#68 = .error .reservedOpcode ∧
  decode 0x2000000003B9ACA00#68 = .error .nsecOutOfRange ∧
  decode 0x18000000000000000#68 = .error .payloadNotZero ∧
  decode 0x2C0000000000003E8#68 = .error .sampleReservedBit ∧
  decode 0x50000000000000020#68 = .error .rdReservedBits ∧
  decode 0x60000000000010000#68 = .error .rdtReservedBits

/-- Decoding the word of a well-formed command gives the command back, at every value of every operand
(R63 to R68). -/
def Obligations.DecodeInvertsEncode : Prop :=
  ∀ i : Instr, i.wf = true → decode (encode i) = .ok i

/-- A word that decodes gives a well-formed command, and is the one word that encodes it: no word bit is
ignored (R63 to R68). -/
def Obligations.DecodedWordIsItsEncoding : Prop :=
  ∀ (w : CmdWord) (i : Instr), decode w = .ok i → i.wf = true ∧ encode i = w

/-- The decoding procedure of R68, with the reserved encodings of R70 to R72, in terms of the word's
number: `op` is the number above `2 ^ 64`, `p` the rest. The reasons named for ILLEGAL, and which of them
a word with two defects gets, are the model's own split of the spec's one ILLEGAL (log entry 12). -/
def Obligations.DecodeFollowsProcedure : Prop :=
  ∀ w : CmdWord,
    let op := w.toNat / 2 ^ 64
    let p := w.toNat % 2 ^ 64
    (op = 0 → decode w = if p = 0 then .ok .nop else .error .payloadNotZero) ∧
    (op = 1 → decode w = if p = 0 then .ok .clear else .error .payloadNotZero) ∧
    (op = 2 → decode w =
      if 2 ^ 63 ≤ p then .error .sampleReservedBit
      else if p % 2 ^ 30 < 1000000000 then
        .ok (.sample (decide (2 ^ 62 ≤ p)) ⟨BitVec.ofNat 32 (p % 2 ^ 62 / 2 ^ 30), BitVec.ofNat 30 (p % 2 ^ 30)⟩)
      else .error .nsecOutOfRange) ∧
    (op = 3 → decode w = if p = 0 then .ok .decode else .error .payloadNotZero) ∧
    (op = 4 → decode w = if p = 0 then .ok .validate else .error .payloadNotZero) ∧
    (op = 5 → decode w = if p < 2 ^ 5 then .ok (.rd (BitVec.ofNat 5 p)) else .error .rdReservedBits) ∧
    (op = 6 → decode w = if p < 2 ^ 16 then .ok (.rdt (BitVec.ofNat 16 p)) else .error .rdtReservedBits) ∧
    (7 ≤ op → decode w = .error .reservedOpcode)

/-- The opcode map (R69) against the decoding procedure (R68, R72): the row of a command is in the map and
matches the command's word under its mask; and a word that is a candidate for a row decodes to a command
of that row, but for a SAMPLE whose `nsec` is 1000000000 or more, which is ILLEGAL. The reason named for
ILLEGAL is the model's own (log entry 12). -/
def Obligations.OpcodeMapRowsAreExact : Prop :=
  (∀ (w : CmdWord) (i : Instr), decode w = .ok i →
    tableRow i ∈ opcodeMap ∧ w &&& (tableRow i).mask = (tableRow i).pattern) ∧
  (∀ (w : CmdWord) (r : TableRow), r ∈ opcodeMap → w &&& r.mask = r.pattern →
    if r.mnemonic = "SAMPLE" ∧ 1000000000 ≤ w.toNat % 2 ^ 30 then decode w = .error .nsecOutOfRange
    else ∃ i, decode w = .ok i ∧ tableRow i = r)

/-- `SMP level, t`, for `t` below `2^32 * 1000000000`, stands for `SAMPLE level, t div 1000000000, t mod
1000000000`; its time is `t` and well-formed; and the example's word is as R76 gives it. -/
def Obligations.SmpIsSampleAtTime : Prop :=
  (∀ (level : Level) (t : Nat), t < 2 ^ 32 * 1000000000 →
    ∃ tm : Timestamp, smpInstr level t = .sample level tm ∧
      tm.sec.toNat = t / 1000000000 ∧ tm.nsec.toNat = t % 1000000000 ∧
      timeNs tm = t ∧ tm.WellFormed) ∧
  (AsmLine.smp true 1000050000).words = [0x2400000004000C350#68]

/-! ### The step and the ports -/

/-- When the word offered decodes to a command, the step is that command's effect on the state in which
the word has been taken and no response stands (00_scope.md R13, 30_encoding.md R61, R62). The list of
events to come and the response field are the model's own (log entries 3 and 4). -/
def Obligations.StepRunsDecodedCommand : Prop :=
  ∀ (s : State) (w : CmdWord) (rest : List PortEvent) (i : Instr),
    s.port = .command w :: rest → decode w = .ok i →
      step s = exec i { s with port := rest, rsp := none }

/-- An ILLEGAL word sets CMD_ERR and does nothing else: no response, in every phase, whatever its opcode
(44_control_readout.md R106). The fields `port` and `rsp` are the model's own (log entries 3 and 4). -/
def Obligations.StepIllegalWordSetsCmdErrOnly : Prop :=
  ∀ (s : State) (w : CmdWord) (rest : List PortEvent) (e : Illegal),
    s.port = .command w :: rest → decode w = .error e →
      step s = .next { s with port := rest, rsp := none, fault := s.fault ||| 0b10000 }

/-- A reset is a step that gives the reset state with the outputs at 0, whatever the state before it; only
the environment's own record (the events to come, the responses already given) is carried over
(70_reset_and_hazards.md R125, R127). What is carried over is the model's choice (log entries 3, 4 and
13). -/
def Obligations.StepResetGivesResetState : Prop :=
  ∀ (s : State) (rest : List PortEvent), s.port = .reset :: rest →
    ∃ t, step s = .next t ∧
      t = { State.resetWith s.cfg with port := rest, responses := s.responses } ∧
      t.faultO = false ∧ t.doneO = false ∧ t.okO = false ∧ t.rspValid = false

/-- With no command offered EDTR is idle and loses no state (60_exceptions.md R124). That an idle cycle is
a step is the model's choice (log entry 5). -/
def Obligations.StepIdleLosesNothing : Prop :=
  ∀ s : State, s.port = [] → step s = .next { s with rsp := none }

/-- EDTR never hangs and is never stuck: every step from every state ends in a next state, and takes
one event of the port, when there is one (00_scope.md R17, 30_encoding.md R61). The list of events is the
model's own (log entries 3 and 5). -/
def Obligations.EveryStepCompletes : Prop :=
  ∀ s : State, ∃ t, step s = .next t ∧ t.port = s.port.tail

/-- RD and RDT each produce exactly one response, the next of the run; no other command, no ILLEGAL word,
no reset and no idle cycle produces one, and none stands after it (30_encoding.md R62). The response field
and the list of responses are the model's own (log entry 4). -/
def Obligations.OnlyReadsRespond : Prop :=
  ∀ s t : State, step s = .next t →
    let reads := ∃ (w : CmdWord) (rest : List PortEvent), s.port = .command w :: rest ∧
      ((∃ reg, decode w = .ok (.rd reg)) ∨ (∃ idx, decode w = .ok (.rdt idx)))
    (reads → ∃ v, t.rsp = some v ∧ t.responses = s.responses ++ [v]) ∧
    (¬ reads → t.rsp = none ∧ t.responses = s.responses)

/-- The parameters are configuration: no step writes them (00_scope.md R16). That they ride in a field of
the state is the model's choice (log entry 1). -/
def Obligations.StepKeepsConfiguration : Prop :=
  ∀ s t : State, step s = .next t → t.cfg = s.cfg

/-- The level outputs are functions of the state: `fault_o` is 1 when a flag of FAULT is 1, `done_o` when
`phase = DONE`, `ok_o` is `val_ok`; CLEAR lowers `done_o` and `ok_o`, and `fault_o` only when SEQ_ERR
and CMD_ERR are 0; reset lowers all three (60_exceptions.md R116). -/
def Obligations.OutputsFollowState : Prop :=
  (∀ s : State, (s.faultO = true ↔ ∃ f, s.flag f = true) ∧ (s.doneO = true ↔ s.phase = .done) ∧
    s.okO = s.fv.valOk) ∧
  (∀ s : State, ∃ t, exec .clear s = .next t ∧ t.doneO = false ∧ t.okO = false ∧
    t.faultO = (s.flag .seqErr || s.flag .cmdErr)) ∧
  (∀ (s : State) (rest : List PortEvent), s.port = .reset :: rest →
    ∃ t, step s = .next t ∧ t.faultO = false ∧ t.doneO = false ∧ t.okO = false)

/-! ### Reset, NOP, CLEAR -/

/-- The reset values, for every configuration (10_state.md R44). -/
def Obligations.ResetValues : Prop :=
  ∀ c : Config,
    let s := State.resetWith c
    s.phase = .capture ∧
    (s.edr.prevValid = false ↔ c.prevInit = .none) ∧
    (s.edr.prev = true ↔ c.prevInit = .one) ∧
    s.edr.tcount = 0 ∧
    (∀ i, s.slot i = ⟨false, false, ⟨0, 0⟩⟩ ∧ (s.slot i).word = 0) ∧
    s.pwd.bcount = 0 ∧ (∀ i, s.bit i = false) ∧
    s.pwd.insufficient = false ∧ s.pwd.diagOob = false ∧ s.fv.valOk = false ∧
    s.fv.winStart = 0 ∧ s.fv.tries = 0 ∧
    s.fv.frame.byte0 = 0 ∧ s.fv.frame.byte1 = 0 ∧ s.fv.frame.byte2 = 0 ∧ s.fv.frame.byte3 = 0 ∧
    s.fv.frame.byte4 = 0 ∧ s.fv.hum = 0 ∧ s.fv.temp = 0 ∧ s.fault = 0

/-- NOP, in every phase, changes nothing: no state, no flag, no response; its word is the number 0, and a
word with its opcode and any other payload is not NOP but ILLEGAL (44_control_readout.md R102). -/
def Obligations.NopChangesNothing : Prop :=
  (∀ s : State, exec .nop s = .next s ∧ runWord 0 s = .next s) ∧
  (∀ (s : State) (w : CmdWord), w.toNat / 2 ^ 64 = 0 → w ≠ 0 →
    runWord w s = .next { s with fault := s.fault ||| 0b10000 })

/-- CLEAR, in every phase: every piece of state takes its reset value, every slot and every bit included,
but SEQ_ERR and CMD_ERR, which keep theirs; no response; right after reset it changes nothing
(44_control_readout.md R103). The model's own fields stay (log entries 1, 3 and 4). -/
def Obligations.ClearGivesResetStateButHostFlags : Prop :=
  (∀ s : State, ∃ t, exec .clear s = .next t ∧
    t.phase = .capture ∧ t.edr = Edr.cleared s.cfg ∧ t.pwd = Pwd.cleared ∧ t.fv = Fv.cleared ∧
    (∀ i, t.slot i = Slot.empty) ∧ (∀ i, t.bit i = false) ∧
    t.flag .trOvf = false ∧ t.flag .bitOvf = false ∧ t.flag .timeErr = false ∧
    t.flag .seqErr = s.flag .seqErr ∧ t.flag .cmdErr = s.flag .cmdErr ∧
    t = { State.resetWith s.cfg with
      fault := t.fault, port := s.port, rsp := s.rsp, responses := s.responses }) ∧
  (∀ c : Config, exec .clear (State.resetWith c) = .next (State.resetWith c))

/-- Reset and CLEAR differ in one thing only: reset is CLEAR and then FAULT <- 0 (70_reset_and_hazards.md
R126). That the events to come and the record of responses are carried over by both is the model's choice
(log entries 1, 3, 4 and 13). -/
def Obligations.ResetIsClearThenFaultZero : Prop :=
  ∀ (s : State) (rest : List PortEvent), s.port = .reset :: rest →
    ∃ t u, exec .clear { s with port := rest, rsp := none } = .next t ∧ step s = .next u ∧
      u = { t with fault := 0 }

/-- No attempt sees anything of an earlier one: two states that differ only in the data of their attempts
are the same state after CLEAR (44_control_readout.md R103, 92_eei_decisions.md D28). -/
def Obligations.ClearForgetsTheAttempt : Prop :=
  ∀ s₁ s₂ : State, s₁.cfg = s₂.cfg → s₁.port = s₂.port → s₁.rsp = s₂.rsp →
    s₁.responses = s₂.responses → s₁.flag .seqErr = s₂.flag .seqErr →
    s₁.flag .cmdErr = s₂.flag .cmdErr →
      ∃ t, exec .clear s₁ = .next t ∧ exec .clear s₂ = .next t

/-! ### SAMPLE -/

/-- SAMPLE as R83 writes it. Outside CAPTURE: SEQ_ERR and nothing else. In CAPTURE: a sample at the previous
level changes nothing at all; an edge with room is recorded in slot `tcount`, every other slot as
before; an edge with the buffer full sets TR_OVF and is not recorded; after either, `prev` is the level.
Nothing else changes (41_capture.md R83). -/
def Obligations.SampleRecordsEdges : Prop :=
  ∀ (s : State) (level : Level) (t : Timestamp), s.cfg.Legal →
    let edge := s.edr.prevValid = false ∨ level ≠ s.edr.prev
    let sampled : Edr := { s.edr with prev := level, prevValid := true }
    (s.phase ≠ .capture → exec (.sample level t) s = .next { s with fault := s.fault ||| 0b01000 }) ∧
    (s.phase = .capture → ¬ edge → exec (.sample level t) s = .next s) ∧
    (s.phase = .capture → edge → s.cfg.transCap ≤ s.edr.tcount.toNat →
      exec (.sample level t) s = .next { s with edr := sampled, fault := s.fault ||| 0b00001 }) ∧
    (s.phase = .capture → edge → s.edr.tcount.toNat < s.cfg.transCap →
      ∃ u, exec (.sample level t) s = .next u ∧
        u = { s with edr := { sampled with tcount := u.edr.tcount, tr := u.edr.tr } } ∧
        u.edr.tcount.toNat = s.edr.tcount.toNat + 1 ∧
        u.slot s.edr.tcount.toNat = ⟨true, level, t⟩ ∧
        ∀ i, i ≠ s.edr.tcount.toNat → u.slot i = s.slot i)

/-- The first SAMPLE of an attempt, after CLEAR, for each value of `PREV_INIT`: with NONE it is always
recorded in slot 0; with 0 only when its level is 1; with 1 only when its level is 0
(41_capture.md R84). -/
def Obligations.FirstSampleByPrevInit : Prop :=
  ∀ (s : State) (level : Level) (t : Timestamp), s.cfg.Legal →
    ∃ c u, exec .clear s = .next c ∧ exec (.sample level t) c = .next u ∧
      u.edr.prevValid = true ∧ u.edr.prev = level ∧
      if s.cfg.prevInit = .none ∨ (s.cfg.prevInit = .zero ∧ level = true) ∨
          (s.cfg.prevInit = .one ∧ level = false) then
        u.slot 0 = ⟨true, level, t⟩ ∧ u.edr.tcount.toNat = 1
      else u = c ∧ u.slot 0 = Slot.empty ∧ u.edr.tcount.toNat = 0

/-- Two SAMPLEs at one level in a row: the second records nothing and changes nothing, whatever its time
(41_capture.md R86 item 1). -/
def Obligations.RepeatedLevelRecordsNothing : Prop :=
  ∀ (s : State) (level : Level) (t t' : Timestamp), s.phase = .capture →
    ∃ u, exec (.sample level t) s = .next u ∧ exec (.sample level t') u = .next u

/-! ### Durations -/

/-- `DIFF` is exact: when it is not ERR its nanosecond part is below 1000000000, its value is the
difference of the two times, and adding it to the first gives the second; `DIFF(a, a) = (0, 0)`
(40_duration.md R79). -/
def Obligations.DiffIsExactDifference : Prop :=
  (∀ (a b : Timestamp) (d : Duration), a.WellFormed → b.WellFormed → diff a b = some d →
    d.dnsec.toNat < 1000000000 ∧ timeNs a ≤ timeNs b ∧ durNs d = timeNs b - timeNs a ∧
      timeNs a + durNs d = timeNs b) ∧
  (∀ a : Timestamp, a.WellFormed → diff a a = some ⟨0, 0⟩)

/-- `DIFF(a, b) = ERR` exactly when `b` is earlier than `a`; equal times are no error
(40_duration.md R80). -/
def Obligations.DiffErrExactlyWhenEarlier : Prop :=
  ∀ a b : Timestamp, a.WellFormed → b.WellFormed →
    (diff a b = none ↔ timeNs b < timeNs a) ∧ (timeNs a = timeNs b → diff a b = some ⟨0, 0⟩)

/-- Comparing a duration with a constant below one second is comparing numbers of nanoseconds, and the
threshold test is `d < THRESH_NS` (40_duration.md R81). -/
def Obligations.DurationComparisonIsNumeric : Prop :=
  ∀ (d : Duration) (k : Nat), d.dnsec.toNat < 1000000000 → 0 < k → k < 1000000000 →
    ((d.dsec = 0 ∧ d.dnsec.toNat < k) ↔ durNs d < k) ∧
    (durBelow d k = true ↔ durNs d < k) ∧
    ((0 < d.dsec.toNat ∨ k < d.dnsec.toNat) ↔ k < durNs d) ∧
    (durAbove d k = true ↔ k < durNs d) ∧
    (∀ c : Config, c.threshNs = k → (classify c d = false ↔ durNs d < k))

/-- Classification and the diagnostic band, for every legal configuration: bit 0 exactly below the
threshold, and a duration at either end of the band is inside it (42_decode.md R88, R89). -/
def Obligations.ClassificationAndBand : Prop :=
  ∀ (c : Config) (d : Duration), c.Legal → d.dnsec.toNat < 1000000000 →
    (classify c d = false ↔ durNs d < c.threshNs) ∧
    (outOfBand c d = true ↔ durNs d < c.diagLoNs ∨ c.diagHiNs < durNs d)

/-! ### DECODE -/

/-- DECODE computes the bits of the recorded transitions. In CAPTURE, from a state that meets the
invariant, it completes; the first `BIT_CAP` bits that slots 1 and up yield are in `BITS`, in order;
BIT_OVF is set exactly when more were yielded, TIME_ERR exactly when a slot is stamped earlier than the
one before, `diag_oob` exactly when a classified time is outside the band, `insufficient` when fewer
than 40 bits are held; the other flags and the rest of the state stay (42_decode.md R87 to R92). -/
def Obligations.DecodeComputesTheYieldedBits : Prop :=
  ∀ s : State, Inv s → s.phase = .capture →
    ∃ t, exec .decode s = .next t ∧
      t.phase = .decoded ∧
      t.pwd.bcount.toNat = min (yieldedBits s).length s.cfg.bitCap ∧
      (∀ i, i < t.pwd.bcount.toNat → (yieldedBits s)[i]? = some (t.bit i)) ∧
      (∀ i, t.pwd.bcount.toNat ≤ i → t.bit i = false) ∧
      (t.flag .bitOvf = true ↔ s.cfg.bitCap < (yieldedBits s).length) ∧
      (t.flag .timeErr = true ↔ ∃ i, 1 ≤ i ∧ i < s.edr.tcount.toNat ∧ stampedEarlier s i) ∧
      (t.pwd.diagOob = true ↔ ∃ i, 1 ≤ i ∧ i < s.edr.tcount.toNat ∧ outsideBand s i) ∧
      (t.pwd.insufficient = true ↔ t.pwd.bcount.toNat < 40) ∧
      t.flag .trOvf = s.flag .trOvf ∧ t.flag .seqErr = s.flag .seqErr ∧
      t.flag .cmdErr = s.flag .cmdErr ∧
      t = { s with phase := .decoded, pwd := t.pwd, fault := t.fault }

/-- DECODE in CAPTURE completes from every state, the unreachable ones too, and leaves everything but PWD's
registers, TIME_ERR, BIT_OVF and the phase as it was: every slot of `TR` reads as before
(42_decode.md R87, 20_memory.md R47). -/
def Obligations.DecodeFrame : Prop :=
  ∀ s : State, s.phase = .capture →
    ∃ t, exec .decode s = .next t ∧ t.phase = .decoded ∧ t.cfg = s.cfg ∧ t.edr = s.edr ∧ t.fv = s.fv ∧
      t.port = s.port ∧ t.rsp = s.rsp ∧ t.responses = s.responses ∧
      (∀ i, t.slot i = s.slot i) ∧
      (∀ f, f ≠ .timeErr → f ≠ .bitOvf → t.flag f = s.flag f) ∧
      (∀ f, s.flag f = true → t.flag f = true) ∧
      (t.pwd.insufficient = true ↔ t.pwd.bcount.toNat < 40)

/-- DECODE is a function of `TR` alone: two states in CAPTURE with the same parameters and the same `TR`
get the same bits, count, status flags, TIME_ERR and BIT_OVF, whatever else differs
(42_decode.md R93 item 1). -/
def Obligations.DecodeDependsOnTransitionsOnly : Prop :=
  ∀ s₁ s₂ : State, Inv s₁ → Inv s₂ → s₁.phase = .capture → s₂.phase = .capture →
    s₁.cfg = s₂.cfg → s₁.edr.tr = s₂.edr.tr →
      ∃ t₁ t₂, exec .decode s₁ = .next t₁ ∧ exec .decode s₂ = .next t₂ ∧ t₁.pwd = t₂.pwd ∧
        t₁.flag .timeErr = t₂.flag .timeErr ∧ t₁.flag .bitOvf = t₂.flag .bitOvf

/-! ### VALIDATE -/

/-- The packing of a window: byte `j` is the sum R96 writes, the earlier bit the more significant, the
fifth byte like the other four (43_validate.md R96). -/
def Obligations.WindowPackingIsMsbFirst : Prop :=
  ∀ (s : State) (a : Nat),
    (packWindow s a).byte0.toNat = windowByte s a 0 ∧ (packWindow s a).byte1.toNat = windowByte s a 1 ∧
    (packWindow s a).byte2.toNat = windowByte s a 2 ∧ (packWindow s a).byte3.toNat = windowByte s a 3 ∧
    (packWindow s a).byte4.toNat = windowByte s a 4

/-- The checksum is the sum of the four data bytes modulo 256, and a window passes when it equals the fifth
byte (43_validate.md R97). -/
def Obligations.ChecksumIsSumModulo256 : Prop :=
  ∀ f : Frame,
    f.checksum.toNat = (f.byte0.toNat + f.byte1.toNat + f.byte2.toNat + f.byte3.toNat) % 256 ∧
    (f.passes = true ↔
      (f.byte0.toNat + f.byte1.toNat + f.byte2.toNat + f.byte3.toNat) % 256 = f.byte4.toNat)

/-- The most recent window that passes is the one accepted: VALIDATE completes with `val_ok = 1`, its start
index, one try for each window from the last down to it, its bytes, and the two fields read from them;
nothing else changes (43_validate.md R94, R95, R98). -/
def Obligations.ValidateAcceptsMostRecentWindow : Prop :=
  ∀ (s : State) (a : Nat), Inv s → s.phase = .decoded → s.attemptFlags = 0 →
    windowPasses s a → (∀ b, a < b → ¬ windowPasses s b) →
      ∃ t, exec .validate s = .next t ∧
        t.fv.valOk = true ∧ t.fv.winStart.toNat = a ∧
        t.fv.tries.toNat = s.pwd.bcount.toNat - 39 - a ∧
        holdsWindow t.fv s a ∧
        t.fv.hum.toNat = windowByte s a 0 * 256 + windowByte s a 1 ∧
        t.fv.temp.toNat = windowByte s a 2 * 256 + windowByte s a 3 ∧
        t = { s with fv := t.fv, phase := .done }

/-- When no window passes, VALIDATE completes all the same: `val_ok`, `hum`, `temp` and `win_start` are 0,
`tries` counts every window, the bytes are those of the last one tested, which starts at 0, or 0 when
there was none; `phase` is DONE and nothing else changes (43_validate.md R99). -/
def Obligations.ValidateFailureLeavesZeroResults : Prop :=
  ∀ s : State, Inv s → s.phase = .decoded → s.attemptFlags = 0 → (∀ a, ¬ windowPasses s a) →
    ∃ t, exec .validate s = .next t ∧
      t.fv.valOk = false ∧ t.fv.hum = 0 ∧ t.fv.temp = 0 ∧ t.fv.winStart = 0 ∧
      t.fv.tries.toNat = s.pwd.bcount.toNat - 39 ∧
      (40 ≤ s.pwd.bcount.toNat → holdsWindow t.fv s 0) ∧
      (s.pwd.bcount.toNat < 40 → t.fv.frame = ⟨0, 0, 0, 0, 0⟩) ∧
      t = { s with fv := t.fv, phase := .done }

/-- A damaged attempt is rejected: with TR_OVF, BIT_OVF or TIME_ERR set no window is tested and every
result is 0, while SEQ_ERR and CMD_ERR do not block the search: VALIDATE gives the same results whatever
they are (43_validate.md R100). -/
def Obligations.ValidateRejectsDamagedAttempt : Prop :=
  (∀ s : State, Inv s → s.phase = .decoded →
    (s.flag .trOvf = true ∨ s.flag .bitOvf = true ∨ s.flag .timeErr = true) →
      exec .validate s = .next { s with phase := .done } ∧ s.fv = Fv.cleared) ∧
  (∀ (s : State) (fault : BitVec 5), s.phase = .decoded →
    fault.extractLsb' 0 3 = s.fault.extractLsb' 0 3 →
      ∃ t, exec .validate s = .next t ∧
        exec .validate { s with fault := fault } = .next { t with fault := fault })

/-- VALIDATE in DECODED completes from every state, the unreachable ones too, and leaves everything but the
validator's registers and the phase as it was: `TR`, `BITS` and FAULT too (43_validate.md R94). -/
def Obligations.ValidateFrame : Prop :=
  ∀ s : State, s.phase = .decoded →
    ∃ t, exec .validate s = .next t ∧ t.phase = .done ∧ t.cfg = s.cfg ∧ t.edr = s.edr ∧ t.pwd = s.pwd ∧
      t.fault = s.fault ∧ t.port = s.port ∧ t.rsp = s.rsp ∧ t.responses = s.responses ∧
      (∀ i, t.slot i = s.slot i) ∧ (∀ i, t.bit i = s.bit i)

/-! ### RD and RDT -/

/-- RD, in every phase: for a number 0 to 7 one response, the value of the register that number names, and
no other change; for 8 to 31 the response 0, CMD_ERR, and no other change
(44_control_readout.md R104). -/
def Obligations.RdRespondsOrIsRefused : Prop :=
  ∀ (s : State) (reg : BitVec 5),
    (reg.toNat < 8 → ∃ r, RegName.ofNumber reg = some r ∧
      exec (.rd reg) s =
        .next { s with rsp := some (readReg r s), responses := s.responses ++ [readReg r s] }) ∧
    (8 ≤ reg.toNat → exec (.rd reg) s =
      .next { s with fault := s.fault ||| 0b10000, rsp := some 0, responses := s.responses ++ [0] })

/-- STATUS is register 0, with the layout of R33 and its reset value (10_state.md R33). -/
def Obligations.StatusRegisterLayout : Prop :=
  (∀ s : State, ∃ t v, exec (.rd 0) s = .next t ∧ t.rsp = some v ∧
    (v.extractLsb' 0 2).toNat = (match s.phase with | .capture => 0 | .decoded => 1 | .done => 2) ∧
    v.getLsbD 2 = s.pwd.insufficient ∧ v.getLsbD 3 = s.fv.valOk ∧ v.getLsbD 4 = s.pwd.diagOob ∧
    v.getLsbD 5 = s.edr.prevValid ∧ v.getLsbD 6 = s.edr.prev ∧ v.extractLsb' 7 57 = 0) ∧
  (∀ c : Config, ∃ t, exec (.rd 0) (State.resetWith c) = .next t ∧
    t.rsp = some (match c.prevInit with | .none => 0 | .zero => 0x20 | .one => 0x60))

/-- FAULT is register 1: its bits 0 to 4 are TR_OVF, BIT_OVF, TIME_ERR, SEQ_ERR, CMD_ERR, the rest zero,
and an RD of it never shows a CMD_ERR of its own making (10_state.md R34, 44_control_readout.md
R104). -/
def Obligations.FaultRegisterLayout : Prop :=
  (∀ s : State, ∃ t v, exec (.rd 1) s = .next t ∧ t.rsp = some v ∧ t.fault = s.fault ∧
    v.getLsbD 0 = s.flag .trOvf ∧ v.getLsbD 1 = s.flag .bitOvf ∧ v.getLsbD 2 = s.flag .timeErr ∧
    v.getLsbD 3 = s.flag .seqErr ∧ v.getLsbD 4 = s.flag .cmdErr ∧ v.extractLsb' 5 59 = 0) ∧
  (∀ c : Config, ∃ t, exec (.rd 1) (State.resetWith c) = .next t ∧ t.rsp = some 0)

/-- TCOUNT, BCOUNT and WIN are registers 2, 3 and 7, with their layouts and reset values
(10_state.md R35, R36, R40). -/
def Obligations.CounterRegistersLayout : Prop :=
  (∀ s : State, ∃ t v, exec (.rd 2) s = .next t ∧ t.rsp = some v ∧
    v.extractLsb' 0 17 = s.edr.tcount ∧ v.extractLsb' 17 47 = 0) ∧
  (∀ s : State, ∃ t v, exec (.rd 3) s = .next t ∧ t.rsp = some v ∧
    v.extractLsb' 0 7 = s.pwd.bcount ∧ v.extractLsb' 7 57 = 0) ∧
  (∀ s : State, ∃ t v, exec (.rd 7) s = .next t ∧ t.rsp = some v ∧
    v.extractLsb' 0 8 = s.fv.winStart ∧ v.extractLsb' 8 8 = s.fv.tries ∧ v.extractLsb' 16 48 = 0) ∧
  (∀ (c : Config) (reg : BitVec 5), reg = 2 ∨ reg = 3 ∨ reg = 7 →
    ∃ t, exec (.rd reg) (State.resetWith c) = .next t ∧ t.rsp = some 0)

/-- BITSR is register 4: bit `i` is `BITS[i]` below `BIT_CAP` and zero from there on; its reset value is 0
(10_state.md R37). -/
def Obligations.BitsrRegisterLayout : Prop :=
  (∀ s : State, s.cfg.Legal → ∃ t v, exec (.rd 4) s = .next t ∧ t.rsp = some v ∧
    (∀ i, i < s.cfg.bitCap → v.getLsbD i = s.bit i ∧ s.bit i = s.pwd.bits.getLsbD i) ∧
    (∀ i, s.cfg.bitCap ≤ i → v.getLsbD i = false)) ∧
  (∀ c : Config, ∃ t, exec (.rd 4) (State.resetWith c) = .next t ∧ t.rsp = some 0)

/-- FRAME is register 5: `byte0` in bits 39:32 down to `byte4` in bits 7:0, so that bit `k` of the window
held is at register bit `39 - k`; its reset value is 0 (10_state.md R38). -/
def Obligations.FrameRegisterLayout : Prop :=
  (∀ s : State, ∃ t v, exec (.rd 5) s = .next t ∧ t.rsp = some v ∧
    v.extractLsb' 32 8 = s.fv.frame.byte0 ∧ v.extractLsb' 24 8 = s.fv.frame.byte1 ∧
    v.extractLsb' 16 8 = s.fv.frame.byte2 ∧ v.extractLsb' 8 8 = s.fv.frame.byte3 ∧
    v.extractLsb' 0 8 = s.fv.frame.byte4 ∧ v.extractLsb' 40 24 = 0 ∧
    (∀ a, s.fv.frame = packWindow s a → ∀ k, k < 40 → v.getLsbD (39 - k) = s.bit (a + k))) ∧
  (∀ c : Config, ∃ t, exec (.rd 5) (State.resetWith c) = .next t ∧ t.rsp = some 0)

/-- MEAS is register 6: `hum` in bits 31:16, `temp` in bits 15:0; its reset value is 0
(10_state.md R39). -/
def Obligations.MeasRegisterLayout : Prop :=
  (∀ s : State, ∃ t v, exec (.rd 6) s = .next t ∧ t.rsp = some v ∧
    v.extractLsb' 16 16 = s.fv.hum ∧ v.extractLsb' 0 16 = s.fv.temp ∧ v.extractLsb' 32 32 = 0) ∧
  (∀ c : Config, ∃ t, exec (.rd 6) (State.resetWith c) = .next t ∧ t.rsp = some 0)

/-- RDT, in every phase: below `TRANS_CAP` one response, the slot as the word of 20_memory.md R46, 0 for an
empty slot, and no other change; at `TRANS_CAP` and above the response 0, CMD_ERR, and no other change
(44_control_readout.md R105). -/
def Obligations.RdtRespondsOrIsRefused : Prop :=
  ∀ (s : State) (idx : BitVec 16),
    (idx.toNat < s.cfg.transCap → ∃ v,
      exec (.rdt idx) s = .next { s with rsp := some v, responses := s.responses ++ [v] } ∧
      v.getLsbD 63 = (s.slot idx.toNat).valid ∧ v.getLsbD 62 = (s.slot idx.toNat).toLevel ∧
      v.extractLsb' 30 32 = (s.slot idx.toNat).when.sec ∧
      v.extractLsb' 0 30 = (s.slot idx.toNat).when.nsec ∧
      (s.slot idx.toNat = Slot.empty → v = 0)) ∧
    (s.cfg.transCap ≤ idx.toNat → exec (.rdt idx) s =
      .next { s with fault := s.fault ||| 0b10000, rsp := some 0, responses := s.responses ++ [0] })

/-- Reads have no side effect on what they read: the same RD or RDT again, with no command between, gives
the same response (20_memory.md R52, 10_state.md R32). -/
def Obligations.ReadsAreIdempotent : Prop :=
  (∀ (s : State) (reg : BitVec 5), reg.toNat < 8 → ∃ t u, exec (.rd reg) s = .next t ∧
    exec (.rd reg) t = .next u ∧ u.rsp = t.rsp ∧ ∀ r, readReg r u = readReg r s) ∧
  (∀ (s : State) (idx : BitVec 16), idx.toNat < s.cfg.transCap → ∃ t u, exec (.rdt idx) s = .next t ∧
    exec (.rdt idx) t = .next u ∧ u.rsp = t.rsp ∧ ∀ i, u.slot i = s.slot i)

/-! ### Phase order and fault flags -/

/-- A command issued in a phase that does not accept it sets SEQ_ERR and nothing else; the check comes
after decoding, so an ILLEGAL word in any phase sets CMD_ERR only (44_control_readout.md R107). -/
def Obligations.WrongPhaseSetsSeqErrOnly : Prop :=
  (∀ (s : State) (i : Instr), outOfPhase s.phase i = true →
    exec i s = .next { s with fault := s.fault ||| 0b01000 }) ∧
  (∀ (s : State) (w : CmdWord) (e : Illegal), decode w = .error e →
    runWord w s = .next { s with fault := s.fault ||| 0b10000 })

/-- The phase table (44_control_readout.md R108): the next phase for every command, an ILLEGAL word and a
reset; SEQ_ERR rises from 0 exactly in the cells marked SEQ. -/
def Obligations.PhaseTable : Prop :=
  (∀ (s : State) (i : Instr), ∃ t, exec i s = .next t ∧ t.phase = nextPhase s.phase i ∧
    t.flag .seqErr = (s.flag .seqErr || outOfPhase s.phase i)) ∧
  (∀ (s : State) (w : CmdWord) (e : Illegal), decode w = .error e →
    ∃ t, runWord w s = .next t ∧ t.phase = s.phase ∧ t.flag .seqErr = s.flag .seqErr) ∧
  (∀ (s : State) (rest : List PortEvent), s.port = .reset :: rest →
    ∃ t, step s = .next t ∧ t.phase = .capture)

/-- Fault flags are sticky: a flag that is 1 stays 1 through every step but one that may clear it: a reset
for any flag, a CLEAR for TR_OVF, BIT_OVF and TIME_ERR only. A CLEAR does clear those three, and a reset
all five (60_exceptions.md R109, 10_state.md R34). -/
def Obligations.FaultFlagsAreSticky : Prop :=
  (∀ (s t : State) (f : FaultFlag), step s = .next t → s.flag f = true →
    t.flag f = true ∨
      (∃ rest, s.port = .reset :: rest) ∨
      ((f = .trOvf ∨ f = .bitOvf ∨ f = .timeErr) ∧
        ∃ w rest, s.port = .command w :: rest ∧ decode w = .ok .clear)) ∧
  (∀ (s : State) (w : CmdWord) (rest : List PortEvent),
    s.port = .command w :: rest → decode w = .ok .clear →
      ∃ t, step s = .next t ∧
        t.flag .trOvf = false ∧ t.flag .bitOvf = false ∧ t.flag .timeErr = false) ∧
  (∀ (s : State) (rest : List PortEvent), s.port = .reset :: rest →
    ∃ t, step s = .next t ∧ ∀ f, t.flag f = false)

/-- Who raises which flag: a flag that a command raises from 0 is TR_OVF raised by a SAMPLE, BIT_OVF or
TIME_ERR raised by a DECODE, SEQ_ERR raised by a SAMPLE, DECODE or VALIDATE, or CMD_ERR raised by an RD
or an RDT (60_exceptions.md R109, R117). -/
def Obligations.FlagRaisersAreThoseListed : Prop :=
  ∀ (s t : State) (i : Instr) (f : FaultFlag), exec i s = .next t → s.flag f = false →
    t.flag f = true →
      match f with
      | .trOvf => (∃ level tm, i = .sample level tm) ∧ s.phase = .capture
      | .bitOvf => i = .decode ∧ s.phase = .capture
      | .timeErr => i = .decode ∧ s.phase = .capture
      | .seqErr => (∃ level tm, i = .sample level tm) ∨ i = .decode ∨ i = .validate
      | .cmdErr => (∃ reg, i = .rd reg) ∨ (∃ idx, i = .rdt idx)

/-- At most one flag is raised by one command, except in DECODE (60_exceptions.md R117). -/
def Obligations.AtMostOneFlagPerCommand : Prop :=
  ∀ (s t : State) (i : Instr) (f g : FaultFlag), i ≠ .decode → exec i s = .next t →
    s.flag f = false → t.flag f = true → s.flag g = false → t.flag g = true → f = g

/-! ### Invariants -/

/-- The reset state meets the invariant, for every legal configuration (10_state.md R43, R44). -/
def Obligations.ResetMeetsInvariant : Prop :=
  ∀ (c : Config) (events : List PortEvent), c.Legal → Inv (State.offered c events)

/-- Every step keeps the invariant of R43 and the canonical form of `TR`, from every state that meets it:
whatever word the host offers, a reset, or nothing (10_state.md R43). -/
def Obligations.StepKeepsInvariant : Prop :=
  ∀ s t : State, Inv s → step s = .next t → Inv t

/-- From reset, for every legal configuration and every sequence of port events, EDTR runs for any number
of steps without a stop, and the state reached meets the invariant (00_scope.md R17, R19, 10_state.md
R43). Port events and idle steps are the model's own (log entries 3 and 5). -/
def Obligations.EveryRunCompletesWithInvariant : Prop :=
  ∀ (c : Config) (events : List PortEvent) (k : Nat), c.Legal →
    ∃ s : State, Sys2Proof.core.run k (State.offered c events) = .next s ∧ Inv s ∧ s.cfg = c

/-- A Measurement is never produced from a damaged capture: in every reachable state with one, VALIDATE
has run, TR_OVF, BIT_OVF and TIME_ERR are 0, the checksum of the bytes held matches, and the two numbers
are read from those bytes (10_state.md R43 item 7, 60_exceptions.md R109). -/
def Obligations.MeasurementComesFromIntactFrame : Prop :=
  ∀ (s : State) (hum temp : BitVec 16), Reachable s → s.measurement = some (hum, temp) →
    s.phase = .done ∧ s.flag .trOvf = false ∧ s.flag .bitOvf = false ∧ s.flag .timeErr = false ∧
    s.fv.frame.passes = true ∧ hum = s.fv.frame.byte0 ++ s.fv.frame.byte1 ∧
    temp = s.fv.frame.byte2 ++ s.fv.frame.byte3
end

