-- ==== Sys2Proof/Laws/Word.lean ====
section
/-! SUPPORT. Words as numbers: concatenation (spec/00_scope.md R9) and masks of the high bits
(spec/30_encoding.md R69). -/

namespace Sys2Proof

/-- `{a, b}` as a number (00_scope.md R9). -/
theorem append_toNat {n m : Nat} (a : BitVec n) (b : BitVec m) :
    (a ++ b).toNat = a.toNat * 2 ^ m + b.toNat := by
  rw [BitVec.toNat_append, ← Nat.shiftLeft_add_eq_or_of_lt b.isLt, Nat.shiftLeft_eq]

theorem ofBool_toNat (b : Bool) : (BitVec.ofBool b).toNat = b.toNat := by cases b <;> rfl

/-- A slice as a number. -/
theorem extract_toNat {n : Nat} (w : BitVec n) (lo len : Nat) :
    (w.extractLsb' lo len).toNat = w.toNat / 2 ^ lo % 2 ^ len := by
  rw [BitVec.extractLsb'_toNat, Nat.shiftRight_eq_div_pow]

/-- One bit as a number. -/
theorem getLsbD_eq_decide {n : Nat} (w : BitVec n) (i : Nat) :
    w.getLsbD i = decide (w.toNat / 2 ^ i % 2 = 1) := by
  rw [BitVec.getLsbD, Nat.testBit_eq_decide_div_mod_eq]

/-- A word under a mask of its bits from `k` up. -/
theorem and_highMask_toNat (w : CmdWord) (k : Nat) :
    (w &&& (BitVec.allOnes 68 <<< k)).toNat = w.toNat / 2 ^ k * 2 ^ k := by
  have h : w &&& (BitVec.allOnes 68 <<< k) = (w >>> k) <<< k := by
    ext i hi
    simp only [BitVec.getElem_and, BitVec.getElem_shiftLeft, BitVec.getElem_ushiftRight]
    by_cases h : i < k
    · simp [h]
    · simp [-BitVec.reduceAllOnes, h, show k + (i - k) = i by omega, BitVec.getLsbD_eq_getElem hi]
  rw [h, BitVec.toNat_shiftLeft, BitVec.toNat_ushiftRight, Nat.shiftRight_eq_div_pow, Nat.shiftLeft_eq]
  have h₁ := Nat.div_mul_le_self w.toNat (2 ^ k)
  have h₂ := w.isLt
  exact Nat.mod_eq_of_lt (by omega)

/-- A word matches a pattern under a mask of its bits from `k` up when the two agree from bit `k` up. -/
theorem and_highMask_eq_iff (w p : CmdWord) (k : Nat) (hp : p.toNat % 2 ^ k = 0) :
    w &&& (BitVec.allOnes 68 <<< k) = p ↔ w.toNat / 2 ^ k = p.toNat / 2 ^ k := by
  rw [← BitVec.toNat_inj, and_highMask_toNat]
  have h := Nat.div_add_mod p.toNat (2 ^ k)
  constructor
  · intro e
    rw [← e, Nat.mul_div_cancel _ (Nat.two_pow_pos k)]
  · intro e
    rw [e, Nat.mul_comm]
    omega

end Sys2Proof
end

