-- ==== Sys2Proof/Laws/Bits.lean ====
section
/-! SUPPORT. The bit buffer: an entry read, an entry written, and eight entries packed into a byte
(spec/20_memory.md R48, R50; 43_validate.md R96). -/

namespace Sys2Proof.Machine

/-- The mask of BITSR covers exactly the entries below `BIT_CAP`. -/
theorem bitsMask_getLsbD (c : Config) (hc : c.Legal) (i : Nat) :
    (bitsMask c).getLsbD i = decide (i < c.bitCap) := by
  obtain ⟨⟨_, h⟩, -⟩ := hc
  rw [bitsMask, BitVec.getLsbD, BitVec.toNat_ofNat, Nat.mod_eq_of_lt, Nat.testBit_two_pow_sub_one]
  have := Nat.pow_le_pow_right (n := 2) (by omega) h
  have := Nat.two_pow_pos c.bitCap
  omega

/-- An entry reads as its stored bit below `BIT_CAP`, and 0 from there on. -/
theorem bit_eq_and (s : State) (hc : s.cfg.Legal) (i : Nat) :
    s.bit i = (decide (i < s.cfg.bitCap) && s.pwd.bits.getLsbD i) := by
  rw [State.bit, State.bitsWord, BitVec.getLsbD_and, bitsMask_getLsbD _ hc, Bool.and_comm]

/-- Writing an entry sets it and keeps the others. -/
theorem writeBit_getLsbD (bits : BitVec 64) (i q : Nat) (b : Bool) (hi : i < 64) :
    (writeBit bits i b).getLsbD q = if q = i then b else bits.getLsbD q := by
  unfold writeBit
  by_cases hq : q < 64
  · cases b
    · simp only [Bool.false_eq_true, if_false, BitVec.getLsbD_and, BitVec.getLsbD_not,
        BitVec.getLsbD_twoPow, hq, decide_true, Bool.true_and]
      by_cases e : q = i
      · simp [e, hi]
      · simp [e, Ne.symm e]
    · simp only [if_true, BitVec.getLsbD_or, BitVec.getLsbD_twoPow]
      by_cases e : q = i
      · simp [e, hi]
      · simp [e, Ne.symm e]
  · have h : bits.getLsbD q = false := BitVec.getLsbD_of_ge _ _ (by omega)
    have e : q ≠ i := by omega
    rw [if_neg e, h]
    exact BitVec.getLsbD_of_ge _ _ (by omega)

/-- The value of a packed byte. -/
theorem packByte_toNat (s : State) (a : Nat) :
    (packByte s a).toNat = (s.bit a).toNat * 128 + (s.bit (a + 1)).toNat * 64 +
      (s.bit (a + 2)).toNat * 32 + (s.bit (a + 3)).toNat * 16 + (s.bit (a + 4)).toNat * 8 +
      (s.bit (a + 5)).toNat * 4 + (s.bit (a + 6)).toNat * 2 + (s.bit (a + 7)).toNat := by
  refine (append_toNat (BitVec.ofBool (s.bit a)) _).trans ?_
  rw [append_toNat, append_toNat, append_toNat, append_toNat, append_toNat, append_toNat]
  simp only [ofBool_toNat]
  omega

/-- Entry `a + k` is bit `7 - k` of the byte packed from `a` on. -/
theorem packByte_getLsbD (s : State) (a k : Nat) (hk : k < 8) :
    (packByte s a).getLsbD (7 - k) = s.bit (a + k) := by
  rw [getLsbD_eq_decide, packByte_toNat]
  have key : ∀ b : Bool, b.toNat ≤ 1 := by decide
  have := key (s.bit a)
  have := key (s.bit (a + 1))
  have := key (s.bit (a + 2))
  have := key (s.bit (a + 3))
  have := key (s.bit (a + 4))
  have := key (s.bit (a + 5))
  have := key (s.bit (a + 6))
  have := key (s.bit (a + 7))
  have e : ∀ b : Bool, b = decide (b.toNat = 1) := by decide
  rw [e (s.bit (a + k))]
  congr 1
  apply propext
  interval_cases k <;> (try simp only [Nat.add_zero]) <;> omega

end Sys2Proof.Machine
end

