-- ==== Sys2Proof/Laws/Decode.lean ====
section
/-! SUPPORT. The fields of a command word, and the word of a command, as numbers: the spec lemmas of the
decoder's field extractions and of the encoder. -/

namespace Sys2Proof

/-! ### Fields of a word -/

theorem opField_toNat (w : CmdWord) : (opField w).toNat = w.toNat / 2 ^ 64 := by
  simp only [opField, extract_toNat]
  have := w.isLt
  omega

theorem payloadField_eq_zero_iff (w : CmdWord) : payloadField w = 0 ↔ w.toNat % 2 ^ 64 = 0 := by
  rw [← BitVec.toNat_inj]
  simp only [payloadField, extract_toNat, Nat.pow_zero, Nat.div_one]
  exact Iff.rfl

theorem sampleReservedBit_iff (w : CmdWord) : w.getLsbD 63 = decide (2 ^ 63 ≤ w.toNat % 2 ^ 64) := by
  rw [getLsbD_eq_decide]
  congr 1
  apply propext
  omega

theorem levelField_eq (w : CmdWord) : levelField w = decide (2 ^ 62 ≤ w.toNat % 2 ^ 63) := by
  rw [levelField, getLsbD_eq_decide]
  congr 1
  apply propext
  omega

theorem timeField_nsec_toNat (w : CmdWord) : (timeField w).nsec.toNat = w.toNat % 2 ^ 30 := by
  simp only [timeField, extract_toNat]
  omega

theorem timeField_sec_toNat (w : CmdWord) : (timeField w).sec.toNat = w.toNat % 2 ^ 62 / 2 ^ 30 := by
  simp only [timeField, extract_toNat]
  omega

theorem regField_toNat (w : CmdWord) : (regField w).toNat = w.toNat % 2 ^ 5 := by
  simp only [regField, extract_toNat]
  omega

theorem idxField_toNat (w : CmdWord) : (idxField w).toNat = w.toNat % 2 ^ 16 := by
  simp only [idxField, extract_toNat]
  omega

theorem rdReserved_eq_zero_iff (w : CmdWord) : w.extractLsb' 5 59 = 0 ↔ w.toNat % 2 ^ 64 < 2 ^ 5 := by
  rw [← BitVec.toNat_inj]
  simp only [extract_toNat]
  show _ = 0 ↔ _
  omega

theorem rdtReserved_eq_zero_iff (w : CmdWord) : w.extractLsb' 16 48 = 0 ↔ w.toNat % 2 ^ 64 < 2 ^ 16 := by
  rw [← BitVec.toNat_inj]
  simp only [extract_toNat]
  show _ = 0 ↔ _
  omega

/-! ### The word of a command -/

theorem encode_toNat (i : Instr) :
    (encode i).toNat = (opcodeOf i).toNat * 2 ^ 64 + (payloadOf i).toNat := by
  rw [encode, append_toNat]

theorem opField_encode (i : Instr) : opField (encode i) = opcodeOf i := by
  apply BitVec.eq_of_toNat_eq
  have := (payloadOf i).isLt
  rw [opField_toNat, encode_toNat]
  omega

theorem payload_sample_toNat (l : Level) (t : Timestamp) :
    (payloadOf (.sample l t)).toNat = l.toNat * 2 ^ 62 + t.sec.toNat * 2 ^ 30 + t.nsec.toNat := by
  show ((0#1 ++ BitVec.ofBool l) ++ (t.sec ++ t.nsec)).toNat = _
  rw [append_toNat, append_toNat t.sec, append_toNat 0#1, ofBool_toNat]
  simp only [BitVec.toNat_ofNat]
  omega

theorem payload_rd_toNat (reg : BitVec 5) : (payloadOf (.rd reg)).toNat = reg.toNat :=
  (append_toNat 0#59 reg).trans (by simp)

theorem payload_rdt_toNat (idx : BitVec 16) : (payloadOf (.rdt idx)).toNat = idx.toNat :=
  (append_toNat 0#48 idx).trans (by simp)

end Sys2Proof
end

