-- ==== Sys2Proof/Laws/Duration.lean ====
section
/-! SUPPORT. The duration unit and its comparisons as arithmetic on numbers of nanoseconds
(spec/40_duration.md R78 to R81). -/

namespace Sys2Proof.Machine

/-- The first test of `DIFF` compares the two times. -/
theorem earlier_iff (a b : Timestamp) (ha : a.WellFormed) (hb : b.WellFormed) :
    earlier b a = true ↔ timeNs b < timeNs a := by
  simp only [Timestamp.WellFormed, nsPerSec] at ha hb
  simp only [earlier, timeNs, nsPerSec, Bool.or_eq_true, decide_eq_true_eq, Bool.and_eq_true, beq_iff_eq,
    ← BitVec.toNat_inj]
  omega

/-- `DIFF` is `ERR` exactly when its first test holds. -/
theorem diff_eq_none_iff (a b : Timestamp) : diff a b = none ↔ earlier b a = true := by
  unfold diff
  split
  · simp_all
  · split <;> simp_all

/-- A duration `DIFF` gives is normalised, and is what the first time lacks of the second. -/
theorem diff_eq_some (a b : Timestamp) (d : Duration) (ha : a.WellFormed) (hb : b.WellFormed)
    (h : diff a b = some d) : d.dnsec.toNat < nsPerSec ∧ timeNs a + durNs d = timeNs b := by
  have he := earlier_iff a b ha hb
  simp only [Timestamp.WellFormed, nsPerSec] at ha hb
  unfold diff at h
  split at h
  · cases h
  · rename_i hne
    rw [he] at hne
    simp only [timeNs, nsPerSec] at hne ⊢
    have := a.sec.isLt
    have := b.sec.isLt
    split at h <;> cases h <;> simp only [durNs, nsPerSec, BitVec.toNat_sub, BitVec.toNat_ofNat,
      show BitVec.toNat (1 : BitVec 32) = 1 from rfl] <;> omega

/-- `durBelow` compares numbers of nanoseconds. -/
theorem durBelow_iff (d : Duration) (k : Nat) (hd : d.dnsec.toNat < nsPerSec) (hk : k < nsPerSec) :
    durBelow d k = true ↔ durNs d < k := by
  simp only [nsPerSec] at hd hk
  simp only [durBelow, durNs, nsPerSec, Bool.and_eq_true, beq_iff_eq, decide_eq_true_eq, ← BitVec.toNat_inj]
  simp
  omega

/-- `durAbove` compares numbers of nanoseconds. -/
theorem durAbove_iff (d : Duration) (k : Nat) (hd : d.dnsec.toNat < nsPerSec) (hk : k < nsPerSec) :
    durAbove d k = true ↔ k < durNs d := by
  simp only [nsPerSec] at hd hk
  simp only [durAbove, durNs, nsPerSec, Bool.or_eq_true, bne_iff_ne, ne_eq, decide_eq_true_eq, ← BitVec.toNat_inj]
  simp
  omega

end Sys2Proof.Machine
end

