-- ==== Sys2Proof/Laws/State.lean ====
section
/-! SUPPORT. For each shared operation, what each field of the state holds after it: true by `rfl` and a
simp lemma, so that no later proof unfolds a record update. -/

namespace Sys2Proof.Machine


/-! ### `raise` -/

@[simp] theorem raise_cfg (f : FaultFlag) (s : State) : (raise f s).cfg = s.cfg := rfl
@[simp] theorem raise_phase (f : FaultFlag) (s : State) : (raise f s).phase = s.phase := rfl
@[simp] theorem raise_edr (f : FaultFlag) (s : State) : (raise f s).edr = s.edr := rfl
@[simp] theorem raise_pwd (f : FaultFlag) (s : State) : (raise f s).pwd = s.pwd := rfl
@[simp] theorem raise_fv (f : FaultFlag) (s : State) : (raise f s).fv = s.fv := rfl
@[simp] theorem raise_fault (f : FaultFlag) (s : State) : (raise f s).fault = s.fault ||| f.mask := rfl
@[simp] theorem raise_port (f : FaultFlag) (s : State) : (raise f s).port = s.port := rfl
@[simp] theorem raise_rsp (f : FaultFlag) (s : State) : (raise f s).rsp = s.rsp := rfl
@[simp] theorem raise_responses (f : FaultFlag) (s : State) : (raise f s).responses = s.responses := rfl
@[simp] theorem raise_slot (f : FaultFlag) (s : State) (i : Nat) : (raise f s).slot i = s.slot i := rfl

/-! ### `clearAttemptFlags` -/

@[simp] theorem clearAttemptFlags_cfg (s : State) : (clearAttemptFlags s).cfg = s.cfg := rfl
@[simp] theorem clearAttemptFlags_phase (s : State) : (clearAttemptFlags s).phase = s.phase := rfl
@[simp] theorem clearAttemptFlags_edr (s : State) : (clearAttemptFlags s).edr = s.edr := rfl
@[simp] theorem clearAttemptFlags_pwd (s : State) : (clearAttemptFlags s).pwd = s.pwd := rfl
@[simp] theorem clearAttemptFlags_fv (s : State) : (clearAttemptFlags s).fv = s.fv := rfl
@[simp] theorem clearAttemptFlags_fault (s : State) : (clearAttemptFlags s).fault = s.fault &&& 0b11000 := rfl
@[simp] theorem clearAttemptFlags_port (s : State) : (clearAttemptFlags s).port = s.port := rfl
@[simp] theorem clearAttemptFlags_rsp (s : State) : (clearAttemptFlags s).rsp = s.rsp := rfl
@[simp] theorem clearAttemptFlags_responses (s : State) : (clearAttemptFlags s).responses = s.responses := rfl
@[simp] theorem clearAttemptFlags_slot (s : State) (i : Nat) : (clearAttemptFlags s).slot i = s.slot i := rfl

/-! ### `recordTransition` -/

@[simp] theorem recordTransition_cfg (l : Level) (t : Timestamp) (s : State) : (recordTransition l t s).cfg = s.cfg := rfl
@[simp] theorem recordTransition_phase (l : Level) (t : Timestamp) (s : State) : (recordTransition l t s).phase = s.phase := rfl
@[simp] theorem recordTransition_pwd (l : Level) (t : Timestamp) (s : State) : (recordTransition l t s).pwd = s.pwd := rfl
@[simp] theorem recordTransition_fv (l : Level) (t : Timestamp) (s : State) : (recordTransition l t s).fv = s.fv := rfl
@[simp] theorem recordTransition_fault (l : Level) (t : Timestamp) (s : State) : (recordTransition l t s).fault = s.fault := rfl
@[simp] theorem recordTransition_port (l : Level) (t : Timestamp) (s : State) : (recordTransition l t s).port = s.port := rfl
@[simp] theorem recordTransition_rsp (l : Level) (t : Timestamp) (s : State) : (recordTransition l t s).rsp = s.rsp := rfl
@[simp] theorem recordTransition_responses (l : Level) (t : Timestamp) (s : State) : (recordTransition l t s).responses = s.responses := rfl

/-! ### `setPrev` -/

@[simp] theorem setPrev_cfg (l : Level) (s : State) : (setPrev l s).cfg = s.cfg := rfl
@[simp] theorem setPrev_phase (l : Level) (s : State) : (setPrev l s).phase = s.phase := rfl
@[simp] theorem setPrev_edr (l : Level) (s : State) : (setPrev l s).edr = { s.edr with prev := l, prevValid := true } := rfl
@[simp] theorem setPrev_pwd (l : Level) (s : State) : (setPrev l s).pwd = s.pwd := rfl
@[simp] theorem setPrev_fv (l : Level) (s : State) : (setPrev l s).fv = s.fv := rfl
@[simp] theorem setPrev_fault (l : Level) (s : State) : (setPrev l s).fault = s.fault := rfl
@[simp] theorem setPrev_port (l : Level) (s : State) : (setPrev l s).port = s.port := rfl
@[simp] theorem setPrev_rsp (l : Level) (s : State) : (setPrev l s).rsp = s.rsp := rfl
@[simp] theorem setPrev_responses (l : Level) (s : State) : (setPrev l s).responses = s.responses := rfl

/-! ### `respond` -/

@[simp] theorem respond_cfg (v : RegWord) (s : State) : (respond v s).cfg = s.cfg := rfl
@[simp] theorem respond_phase (v : RegWord) (s : State) : (respond v s).phase = s.phase := rfl
@[simp] theorem respond_edr (v : RegWord) (s : State) : (respond v s).edr = s.edr := rfl
@[simp] theorem respond_pwd (v : RegWord) (s : State) : (respond v s).pwd = s.pwd := rfl
@[simp] theorem respond_fv (v : RegWord) (s : State) : (respond v s).fv = s.fv := rfl
@[simp] theorem respond_fault (v : RegWord) (s : State) : (respond v s).fault = s.fault := rfl
@[simp] theorem respond_port (v : RegWord) (s : State) : (respond v s).port = s.port := rfl
@[simp] theorem respond_rsp (v : RegWord) (s : State) : (respond v s).rsp = some v := rfl
@[simp] theorem respond_responses (v : RegWord) (s : State) : (respond v s).responses = s.responses ++ [v] := rfl
@[simp] theorem respond_slot (v : RegWord) (s : State) (i : Nat) : (respond v s).slot i = s.slot i := rfl

/-! ### `flagBand` -/

@[simp] theorem flagBand_cfg (d : Duration) (s : State) : (flagBand d s).cfg = s.cfg := rfl
@[simp] theorem flagBand_phase (d : Duration) (s : State) : (flagBand d s).phase = s.phase := rfl
@[simp] theorem flagBand_edr (d : Duration) (s : State) : (flagBand d s).edr = s.edr := rfl
@[simp] theorem flagBand_pwd (d : Duration) (s : State) : (flagBand d s).pwd = { s.pwd with diagOob := s.pwd.diagOob || outOfBand s.cfg d } := rfl
@[simp] theorem flagBand_fv (d : Duration) (s : State) : (flagBand d s).fv = s.fv := rfl
@[simp] theorem flagBand_fault (d : Duration) (s : State) : (flagBand d s).fault = s.fault := rfl
@[simp] theorem flagBand_port (d : Duration) (s : State) : (flagBand d s).port = s.port := rfl
@[simp] theorem flagBand_rsp (d : Duration) (s : State) : (flagBand d s).rsp = s.rsp := rfl
@[simp] theorem flagBand_responses (d : Duration) (s : State) : (flagBand d s).responses = s.responses := rfl
@[simp] theorem flagBand_slot (d : Duration) (s : State) (i : Nat) : (flagBand d s).slot i = s.slot i := rfl

/-! ### `finishDecode` -/

@[simp] theorem finishDecode_cfg (s : State) : (finishDecode s).cfg = s.cfg := rfl
@[simp] theorem finishDecode_phase (s : State) : (finishDecode s).phase = .decoded := rfl
@[simp] theorem finishDecode_edr (s : State) : (finishDecode s).edr = s.edr := rfl
@[simp] theorem finishDecode_pwd (s : State) : (finishDecode s).pwd = { s.pwd with insufficient := insufficientOf s.pwd.bcount } := rfl
@[simp] theorem finishDecode_fv (s : State) : (finishDecode s).fv = s.fv := rfl
@[simp] theorem finishDecode_fault (s : State) : (finishDecode s).fault = s.fault := rfl
@[simp] theorem finishDecode_port (s : State) : (finishDecode s).port = s.port := rfl
@[simp] theorem finishDecode_rsp (s : State) : (finishDecode s).rsp = s.rsp := rfl
@[simp] theorem finishDecode_responses (s : State) : (finishDecode s).responses = s.responses := rfl
@[simp] theorem finishDecode_slot (s : State) (i : Nat) : (finishDecode s).slot i = s.slot i := rfl

/-! ### `endResponse` -/

@[simp] theorem endResponse_cfg (s : State) : (endResponse s).cfg = s.cfg := rfl
@[simp] theorem endResponse_phase (s : State) : (endResponse s).phase = s.phase := rfl
@[simp] theorem endResponse_edr (s : State) : (endResponse s).edr = s.edr := rfl
@[simp] theorem endResponse_pwd (s : State) : (endResponse s).pwd = s.pwd := rfl
@[simp] theorem endResponse_fv (s : State) : (endResponse s).fv = s.fv := rfl
@[simp] theorem endResponse_fault (s : State) : (endResponse s).fault = s.fault := rfl
@[simp] theorem endResponse_port (s : State) : (endResponse s).port = s.port := rfl
@[simp] theorem endResponse_rsp (s : State) : (endResponse s).rsp = none := rfl
@[simp] theorem endResponse_responses (s : State) : (endResponse s).responses = s.responses := rfl
@[simp] theorem endResponse_slot (s : State) (i : Nat) : (endResponse s).slot i = s.slot i := rfl

/-! ### `takeCommand` -/

@[simp] theorem takeCommand_cfg (rest : List PortEvent) (s : State) : (takeCommand rest s).cfg = s.cfg := rfl
@[simp] theorem takeCommand_phase (rest : List PortEvent) (s : State) : (takeCommand rest s).phase = s.phase := rfl
@[simp] theorem takeCommand_edr (rest : List PortEvent) (s : State) : (takeCommand rest s).edr = s.edr := rfl
@[simp] theorem takeCommand_pwd (rest : List PortEvent) (s : State) : (takeCommand rest s).pwd = s.pwd := rfl
@[simp] theorem takeCommand_fv (rest : List PortEvent) (s : State) : (takeCommand rest s).fv = s.fv := rfl
@[simp] theorem takeCommand_fault (rest : List PortEvent) (s : State) : (takeCommand rest s).fault = s.fault := rfl
@[simp] theorem takeCommand_port (rest : List PortEvent) (s : State) : (takeCommand rest s).port = rest := rfl
@[simp] theorem takeCommand_rsp (rest : List PortEvent) (s : State) : (takeCommand rest s).rsp = none := rfl
@[simp] theorem takeCommand_responses (rest : List PortEvent) (s : State) : (takeCommand rest s).responses = s.responses := rfl
@[simp] theorem takeCommand_slot (rest : List PortEvent) (s : State) (i : Nat) : (takeCommand rest s).slot i = s.slot i := rfl

/-! ### `recordTransition`, the part it writes -/

@[simp] theorem recordTransition_tcount (l : Level) (t : Timestamp) (s : State) :
    (recordTransition l t s).edr.tcount = s.edr.tcount + 1 := rfl
@[simp] theorem recordTransition_tr (l : Level) (t : Timestamp) (s : State) :
    (recordTransition l t s).edr.tr = s.edr.tr.write s.edr.tcount.toNat ⟨true, l, t⟩ := rfl
@[simp] theorem recordTransition_prev (l : Level) (t : Timestamp) (s : State) :
    (recordTransition l t s).edr.prev = s.edr.prev := rfl
@[simp] theorem recordTransition_prevValid (l : Level) (t : Timestamp) (s : State) :
    (recordTransition l t s).edr.prevValid = s.edr.prevValid := rfl
@[simp] theorem setPrev_slot (l : Level) (s : State) (i : Nat) : (setPrev l s).slot i = s.slot i := rfl

/-! ### `appendBit`, either way -/

@[simp] theorem appendBit_cfg (b : Bool) (s : State) : (appendBit b s).cfg = s.cfg := by
  unfold appendBit; split <;> rfl
@[simp] theorem appendBit_phase (b : Bool) (s : State) : (appendBit b s).phase = s.phase := by
  unfold appendBit; split <;> rfl
@[simp] theorem appendBit_edr (b : Bool) (s : State) : (appendBit b s).edr = s.edr := by
  unfold appendBit; split <;> rfl
@[simp] theorem appendBit_fv (b : Bool) (s : State) : (appendBit b s).fv = s.fv := by
  unfold appendBit; split <;> rfl
@[simp] theorem appendBit_port (b : Bool) (s : State) : (appendBit b s).port = s.port := by
  unfold appendBit; split <;> rfl
@[simp] theorem appendBit_rsp (b : Bool) (s : State) : (appendBit b s).rsp = s.rsp := by
  unfold appendBit; split <;> rfl
@[simp] theorem appendBit_responses (b : Bool) (s : State) :
    (appendBit b s).responses = s.responses := by
  unfold appendBit; split <;> rfl
@[simp] theorem appendBit_slot (b : Bool) (s : State) (i : Nat) :
    (appendBit b s).slot i = s.slot i := by
  simp [State.slot]

/-- The two ways a bit is appended (42_decode.md R90). -/
theorem appendBit_cases (b : Bool) (s : State) :
    (s.pwd.bcount.toNat < s.cfg.bitCap ∧ appendBit b s = { s with pwd := { s.pwd with
      bits := writeBit s.pwd.bits s.pwd.bcount.toNat b, bcount := s.pwd.bcount + 1 } }) ∨
    (s.cfg.bitCap ≤ s.pwd.bcount.toNat ∧ appendBit b s = raise .bitOvf s) := by
  unfold appendBit
  split
  · exact .inl ⟨‹_›, rfl⟩
  · exact .inr ⟨by omega, rfl⟩

end Sys2Proof.Machine
end

