-- ==== Sys2Proof/Laws/Flags.lean ====
section
/-! SUPPORT. What setting and clearing fault flags does to each flag, and the attempt flags and `fault_o` in
terms of the flags (spec/60_exceptions.md R109, R116; 43_validate.md R100). -/

namespace Sys2Proof.Machine

/-- `raise f` sets the flag `f` and keeps the others. -/
theorem raise_flag (f g : FaultFlag) (s : State) :
    (raise f s).flag g = (decide (f = g) || s.flag g) := by
  simp only [State.flag, raise_fault, BitVec.getLsbD_or]
  cases f <;> cases g <;> simp [FaultFlag.mask, FaultFlag.bit]

/-- Clearing the attempt flags keeps SEQ_ERR and CMD_ERR. -/
theorem clearAttemptFlags_flag (g : FaultFlag) (s : State) :
    (clearAttemptFlags s).flag g = ((decide (g = .seqErr) || decide (g = .cmdErr)) && s.flag g) := by
  simp only [State.flag, clearAttemptFlags_fault, BitVec.getLsbD_and]
  cases g <;> simp [FaultFlag.bit]

/-- No attempt flag is set exactly when TR_OVF, BIT_OVF and TIME_ERR are 0. -/
theorem attemptFlags_eq_zero_iff (s : State) :
    s.attemptFlags = 0 ↔ s.flag .trOvf = false ∧ s.flag .bitOvf = false ∧ s.flag .timeErr = false := by
  simp only [State.attemptFlags, State.flag, FaultFlag.bit]
  generalize s.fault = x
  revert x
  decide

/-- FAULT bits 2:1 are 0 exactly when BIT_OVF and TIME_ERR are. -/
theorem decodeFlags_eq_zero_iff (s : State) :
    s.fault.extractLsb' 1 2 = 0 ↔ s.flag .bitOvf = false ∧ s.flag .timeErr = false := by
  simp only [State.flag, FaultFlag.bit]
  generalize s.fault = x
  revert x
  decide

/-- `fault_o` is the or of the five flags. -/
theorem faultO_eq_or (s : State) :
    s.faultO = (s.flag .trOvf || s.flag .bitOvf || s.flag .timeErr || s.flag .seqErr || s.flag .cmdErr) := by
  simp only [State.faultO, State.flag, FaultFlag.bit]
  generalize s.fault = x
  revert x
  decide

/-- Raising a host flag leaves FAULT bits 2:0, and so bits 2:1, as they were. -/
theorem raise_host_flags (f : FaultFlag) (hf : f = .seqErr ∨ f = .cmdErr) (s : State) :
    (raise f s).fault.extractLsb' 1 2 = s.fault.extractLsb' 1 2 ∧
      (raise f s).attemptFlags = s.attemptFlags := by
  simp only [State.attemptFlags, raise_fault]
  generalize s.fault = x
  rcases hf with rfl | rfl <;> (revert x; decide)

end Sys2Proof.Machine
end

