-- ==== Sys2Proof/Laws/Exec.lean ====
section
/-! SUPPORT. Everything a step can do, everything a command leaves alone, and DECODE's loop: said once, so
that no later proof unfolds `step` or `exec` (spec/00_scope.md R13, 42_decode.md R87). -/

namespace Sys2Proof.Machine

/-! ### DECODE's loop -/

/-- DECODE in CAPTURE. -/
theorem execDecode_capture (s : State) (hp : s.phase = .capture) :
    execDecode s = .next (finishDecode (decodeLoop (s.cfg.transCap - 1) 1 s)) := by
  simp only [execDecode, hp, if_true]

/-- One slot changes PWD's registers and FAULT only. -/
theorem decodeSlot_frame (i : Nat) (s : State) :
    decodeSlot i s = { s with pwd := (decodeSlot i s).pwd, fault := (decodeSlot i s).fault } := by
  unfold decodeSlot
  split
  · rfl
  · split
    · rcases appendBit_cases (classify s.cfg ‹Duration›) (flagBand ‹_› s) with ⟨-, h⟩ | ⟨-, h⟩ <;>
        rw [h] <;> rfl
    · rfl

/-- The loop changes PWD's registers and FAULT only. -/
theorem decodeLoop_frame (n : Nat) : ∀ (i : Nat) (s : State),
    decodeLoop n i s =
      { s with pwd := (decodeLoop n i s).pwd, fault := (decodeLoop n i s).fault } := by
  induction n with
  | zero => intro i s; rfl
  | succ n ih =>
    intro i s
    simp only [decodeLoop]
    split
    · have h := ih (i + 1) (decodeSlot i s)
      rw [decodeSlot_frame i s] at h ⊢
      exact h
    · rfl

/-- One slot clears no flag and sets none but TIME_ERR and BIT_OVF. -/
theorem decodeSlot_flag (i : Nat) (s : State) (f : FaultFlag) :
    (s.flag f = true → (decodeSlot i s).flag f = true) ∧
      (f ≠ .timeErr → f ≠ .bitOvf → (decodeSlot i s).flag f = s.flag f) := by
  unfold decodeSlot
  split
  · simp only [raise_flag]
    exact ⟨fun h => by simp [h], fun h _ => by simp [h.symm]⟩
  · split
    · rcases appendBit_cases (classify s.cfg ‹Duration›) (flagBand ‹_› s) with ⟨-, h⟩ | ⟨-, h⟩
      · rw [h]
        exact ⟨fun h => h, fun _ _ => rfl⟩
      · rw [h, raise_flag]
        constructor
        · intro h
          simp only [State.flag, flagBand_fault] at h ⊢
          rw [h]
          simp
        · intro _ h
          simp [h.symm]
          rfl
    · exact ⟨fun h => h, fun _ _ => rfl⟩

/-- The loop clears no flag and sets none but TIME_ERR and BIT_OVF. -/
theorem decodeLoop_flag (f : FaultFlag) (n : Nat) : ∀ (i : Nat) (s : State),
    (s.flag f = true → (decodeLoop n i s).flag f = true) ∧
      (f ≠ .timeErr → f ≠ .bitOvf → (decodeLoop n i s).flag f = s.flag f) := by
  induction n with
  | zero => intro i s; exact ⟨fun h => h, fun _ _ => rfl⟩
  | succ n ih =>
    intro i s
    simp only [decodeLoop]
    split
    · have h₁ := ih (i + 1) (decodeSlot i s)
      have h₂ := decodeSlot_flag i s f
      exact ⟨fun h => h₁.1 (h₂.1 h), fun a b => (h₁.2 a b).trans (h₂.2 a b)⟩
    · exact ⟨fun h => h, fun _ _ => rfl⟩

/-! ### A command -/

/-- Every command ends in a next state. -/
theorem exec_next (i : Instr) (s : State) : ∃ t, exec i s = .next t := by
  cases i <;> simp only [exec, execNop, execClear, execSample, execDecode, execValidate, execRd, execRdt] <;>
    (try split) <;> exact ⟨_, rfl⟩

/-- No command writes the parameters or looks at the events to come. -/
theorem exec_cfg_port (i : Instr) (s t : State) (h : exec i s = .next t) :
    t.cfg = s.cfg ∧ t.port = s.port := by
  have loop := decodeLoop_frame (s.cfg.transCap - 1) 1 s
  cases i <;>
    simp only [exec, execNop, execClear, execSample, execDecode, execValidate, execRd, execRdt] at h <;>
    (try split at h) <;> (injection h with h; subst h)
  case decode.isTrue => rw [loop]; exact ⟨rfl, rfl⟩
  case sample.isTrue =>
    split
    · unfold captureEdge
      split <;> exact ⟨rfl, rfl⟩
    · exact ⟨rfl, rfl⟩
  all_goals exact ⟨rfl, rfl⟩

/-! ### A step -/

/-- Everything a step can be: idle, a reset, a command, or an ILLEGAL word. -/
theorem step_cases (s t : State) (h : step s = .next t) :
    (s.port = [] ∧ t = idle s) ∨
    (∃ rest, s.port = .reset :: rest ∧ t = takeReset rest s) ∨
    (∃ w rest, s.port = .command w :: rest ∧
      ((∃ i, decode w = .ok i ∧ exec i (takeCommand rest s) = .next t) ∨
        (∃ e, decode w = .error e ∧ t = raise .cmdErr (takeCommand rest s)))) := by
  unfold step at h
  split at h
  · injection h with h
    exact .inl ⟨‹_›, h.symm⟩
  · injection h with h
    exact .inr (.inl ⟨_, ‹_›, h.symm⟩)
  · refine .inr (.inr ⟨_, _, ‹_›, ?_⟩)
    unfold runWord at h
    split at h
    · exact .inl ⟨_, ‹_›, h⟩
    · injection h with h
      exact .inr ⟨_, ‹_›, h.symm⟩

end Sys2Proof.Machine
end

