-- ==== Sys2Proof/Laws/Memory.lean ====
section
/-! SUPPORT. The transition buffer: a read after a write, and that a write keeps the canonical form. -/

namespace Sys2Proof.Machine

@[simp] theorem Memory.read_nil (i : Nat) : Memory.read [] i = Slot.empty := rfl

theorem Memory.read_cons (k : Nat) (v : Slot) (m : Memory) (i : Nat) :
    Memory.read ((k, v) :: m) i = if k = i then v else Memory.read m i := rfl

/-- An index below every listed one reads as empty. -/
theorem Memory.read_eq_empty_of_lt (m : Memory) (i : Nat) (h : ∀ p ∈ m, i < p.1) :
    Memory.read m i = Slot.empty := by
  induction m with
  | nil => rfl
  | cons p m ih =>
    have hp : i < p.1 := h p (by simp)
    rw [show p = (p.1, p.2) from rfl, Memory.read_cons, if_neg (by omega)]
    exact ih fun q hq => h q (by simp [hq])

/-- Reading the slot just written gives what was written. -/
theorem Memory.read_write_same (m : Memory) (h : m.wf) (i : Nat) (v : Slot) :
    (m.write i v).read i = v := by
  induction m with
  | nil => by_cases hv : v = Slot.empty <;> simp [Memory.write, Memory.put, Memory.read, hv]
  | cons p m ih =>
    obtain ⟨k, u⟩ := p
    obtain ⟨hs, he⟩ := h
    rw [List.pairwise_cons] at hs
    have hm : Memory.wf m := ⟨hs.2, fun q hq => he q (by simp [hq])⟩
    simp only [Memory.write, Memory.put]
    split
    · split
      · subst v
        refine Memory.read_eq_empty_of_lt _ _ fun q hq => ?_
        rcases List.mem_cons.1 hq with rfl | hq
        · assumption
        · have := hs.1 q hq; simp only at this; omega
      · simp [Memory.read]
    · split
      · subst k
        split
        · subst v
          exact Memory.read_eq_empty_of_lt _ _ fun q hq => hs.1 q hq
        · simp [Memory.read]
      · rw [Memory.read_cons, if_neg (by omega)]
        exact ih hm

/-- Reading a filled slot just written gives what was written, whatever the form of the list. -/
theorem Memory.read_write_filled (m : Memory) (i : Nat) (v : Slot) (hv : v ≠ Slot.empty) :
    (m.write i v).read i = v := by
  induction m with
  | nil => simp [Memory.write, Memory.put, Memory.read, hv]
  | cons p m ih =>
    obtain ⟨k, u⟩ := p
    simp only [Memory.write, Memory.put, hv, if_false]
    split
    · simp [Memory.read]
    · split
      · simp [Memory.read]
      · rw [Memory.read_cons, if_neg (by omega)]
        exact ih

/-- A write leaves every other slot alone. -/
theorem Memory.read_write_other (m : Memory) (i j : Nat) (v : Slot) (h : j ≠ i) :
    (m.write i v).read j = m.read j := by
  induction m with
  | nil => by_cases hv : v = Slot.empty <;> simp [Memory.write, Memory.put, Memory.read, hv, h.symm]
  | cons p m ih =>
    obtain ⟨k, u⟩ := p
    simp only [Memory.write, Memory.put]
    split
    · split
      · rfl
      · rw [Memory.read_cons, if_neg (by omega)]
    · split
      · subst k
        split
        · rw [Memory.read_cons, if_neg (Ne.symm h)]
        · rw [Memory.read_cons, Memory.read_cons, if_neg (Ne.symm h), if_neg (Ne.symm h)]
      · rw [Memory.read_cons, Memory.read_cons, ih]

/-- The indexes listed after a write were listed before, or are the one written. -/
theorem Memory.mem_write (m : Memory) (i : Nat) (v : Slot) (p : Nat × Slot) (h : p ∈ m.write i v) :
    p ∈ m ∨ (p = (i, v) ∧ v ≠ Slot.empty) := by
  induction m with
  | nil =>
    by_cases hv : v = Slot.empty
    · simp [Memory.write, Memory.put, hv] at h
    · simp only [Memory.write, Memory.put, hv, if_false, List.mem_singleton] at h
      exact .inr ⟨h, hv⟩
  | cons q m ih =>
    obtain ⟨k, u⟩ := q
    simp only [Memory.write, Memory.put] at h
    split at h
    · split at h
      · exact .inl h
      · rcases List.mem_cons.1 h with h | h
        · exact .inr ⟨h, ‹_›⟩
        · exact .inl h
    · split at h
      · split at h
        · exact .inl (by simp [h])
        · rcases List.mem_cons.1 h with h | h
          · exact .inr ⟨h, ‹_›⟩
          · exact .inl (by simp [h])
      · rcases List.mem_cons.1 h with h | h
        · exact .inl (by simp [h])
        · rcases ih h with h | h
          · exact .inl (by simp [h])
          · exact .inr h

/-- A write keeps the canonical form. -/
theorem Memory.write_wf (m : Memory) (i : Nat) (v : Slot) (h : m.wf) : Memory.wf (m.write i v) := by
  refine ⟨?_, fun p hp => ?_⟩
  · induction m with
    | nil => by_cases hv : v = Slot.empty <;> simp [Memory.write, Memory.put, hv]
    | cons q m ih =>
      obtain ⟨k, u⟩ := q
      obtain ⟨hs, he⟩ := h
      have hs' := List.pairwise_cons.1 hs
      have hm : Memory.wf m := ⟨hs'.2, fun q hq => he q (by simp [hq])⟩
      simp only [Memory.write, Memory.put]
      split
      · split
        · exact hs
        · refine List.pairwise_cons.2 ⟨fun q hq => ?_, hs⟩
          rcases List.mem_cons.1 hq with rfl | hq
          · assumption
          · have := hs'.1 q hq; simp only at this ⊢; omega
      · split
        · subst k
          split
          · exact hs'.2
          · exact List.pairwise_cons.2 ⟨fun q hq => hs'.1 q hq, hs'.2⟩
        · refine List.pairwise_cons.2 ⟨fun q hq => ?_, ih hm⟩
          rcases Memory.mem_write m i v q hq with hq | ⟨rfl, -⟩
          · exact hs'.1 q hq
          · simp only; omega
  · rcases Memory.mem_write m i v p hp with hp | ⟨rfl, hv⟩
    · exact h.2 p hp
    · exact hv

theorem Memory.nil_wf : Memory.wf [] := by simp [Memory.wf]

end Sys2Proof.Machine
end

