-- ==== Sys2Proof/Laws/Operands.lean ====
section
/-! SUPPORT. The words that RD and RDT answer with, as numbers: the sum of their fields at their places
(spec/10_state.md R33 to R40, spec/20_memory.md R46). -/

namespace Sys2Proof.Machine

theorem Slot.word_toNat (v : Slot) : v.word.toNat =
    v.valid.toNat * 2 ^ 63 + v.toLevel.toNat * 2 ^ 62 + v.when.sec.toNat * 2 ^ 30 + v.when.nsec.toNat := by
  show ((BitVec.ofBool v.valid ++ BitVec.ofBool v.toLevel) ++ (v.when.sec ++ v.when.nsec)).toNat = _
  rw [append_toNat, append_toNat v.when.sec, append_toNat (BitVec.ofBool v.valid), ofBool_toNat,
    ofBool_toNat]
  omega

theorem statusWord_toNat (s : State) : (statusWord s).toNat =
    s.edr.prev.toNat * 64 + s.edr.prevValid.toNat * 32 + s.pwd.diagOob.toNat * 16 +
      s.fv.valOk.toNat * 8 + s.pwd.insufficient.toNat * 4 + s.phase.code.toNat := by
  refine (append_toNat 0#57 _).trans ?_
  rw [append_toNat, append_toNat, append_toNat, append_toNat, append_toNat]
  simp only [ofBool_toNat, BitVec.toNat_ofNat]
  omega

theorem frameWord_toNat (s : State) : (frameWord s).toNat =
    s.fv.frame.byte0.toNat * 2 ^ 32 + s.fv.frame.byte1.toNat * 2 ^ 24 +
      s.fv.frame.byte2.toNat * 2 ^ 16 + s.fv.frame.byte3.toNat * 2 ^ 8 + s.fv.frame.byte4.toNat := by
  refine (append_toNat 0#24 _).trans ?_
  rw [append_toNat, append_toNat, append_toNat, append_toNat]
  simp only [BitVec.toNat_ofNat]
  omega

theorem measWord_toNat (s : State) :
    (measWord s).toNat = s.fv.hum.toNat * 2 ^ 16 + s.fv.temp.toNat := by
  refine (append_toNat 0#32 _).trans ?_
  rw [append_toNat]
  simp

theorem winWord_toNat (s : State) :
    (winWord s).toNat = s.fv.tries.toNat * 2 ^ 8 + s.fv.winStart.toNat := by
  refine (append_toNat 0#48 _).trans ?_
  rw [append_toNat]
  simp

theorem RegName.ofNumber_isSome_iff (reg : BitVec 5) :
    (RegName.ofNumber reg).isSome = decide (reg.toNat < 8) := by
  revert reg
  decide

end Sys2Proof.Machine
end

