-- ==== Sys2Proof/Laws/PerInstr.lean ====
section
/-! SUPPORT. A family of per-command lemmas: the word of a command is a candidate for the command's own row
of the opcode map (spec/30_encoding.md R69). -/

namespace Sys2Proof.Laws.RowMatch

/-- The word of `i` matches the row of `i` under its mask. -/
def Statement (i : Instr) : Prop := (tableRow i).candidate (encode i) = true

theorem nop : Statement .nop := by unfold Statement; decide

theorem clear : Statement .clear := by unfold Statement; decide

theorem sample (level : Level) (t : Timestamp) : Statement (.sample level t) := by
  have h := encode_toNat (.sample level t)
  rw [payload_sample_toNat] at h
  have := t.sec.isLt
  have := t.nsec.isLt
  have : level.toNat ≤ 1 := Bool.toNat_le level
  refine beq_iff_eq.mpr ?_
  show encode (.sample level t) &&& 0xF8000000000000000#68 = 0x20000000000000000#68
  rw [show 0xF8000000000000000#68 = BitVec.allOnes 68 <<< 63 by decide,
    and_highMask_eq_iff _ _ _ (by decide), h]
  simp [opcodeOf]
  omega

theorem decode : Statement .decode := by unfold Statement; decide

theorem validate : Statement .validate := by unfold Statement; decide

theorem rd (reg : BitVec 5) : Statement (.rd reg) := by
  have h := encode_toNat (.rd reg)
  rw [payload_rd_toNat] at h
  refine beq_iff_eq.mpr ?_
  show encode (.rd reg) &&& 0xFFFFFFFFFFFFFFFE0#68 = 0x50000000000000000#68
  rw [show 0xFFFFFFFFFFFFFFFE0#68 = BitVec.allOnes 68 <<< 5 by decide,
    and_highMask_eq_iff _ _ _ (by decide), h]
  have := reg.isLt
  simp [opcodeOf]
  omega

theorem rdt (idx : BitVec 16) : Statement (.rdt idx) := by
  have h := encode_toNat (.rdt idx)
  rw [payload_rdt_toNat] at h
  refine beq_iff_eq.mpr ?_
  show encode (.rdt idx) &&& 0xFFFFFFFFFFFFF0000#68 = 0x60000000000000000#68
  rw [show 0xFFFFFFFFFFFFF0000#68 = BitVec.allOnes 68 <<< 16 by decide,
    and_highMask_eq_iff _ _ _ (by decide), h]
  have := idx.isLt
  simp [opcodeOf]
  omega

end Sys2Proof.Laws.RowMatch
end

