-- ==== Sys2Proof/Laws/Search.lean ====
section
/-! SUPPORT. VALIDATE and its search, one try at a time (spec/43_validate.md R94, R95). -/

namespace Sys2Proof.Machine

/-- VALIDATE in DECODED. -/
theorem execValidate_decoded (s : State) (hp : s.phase = .decoded) :
    execValidate s = .next { s with
      fv := if s.attemptFlags = 0 then searchWindows s s.pwd.bcount.toNat s.fv else s.fv
      phase := .done } := by
  simp only [execValidate, hp, if_true]

/-- Once a window has passed, the search is over. -/
theorem searchWindows_of_valOk (s : State) (e : Nat) (v : Fv) (h : v.valOk = true) :
    searchWindows s e v = v := by
  cases e <;> simp [searchWindows, h]

/-- Fewer than 40 bits hold no window. -/
theorem searchWindows_short (s : State) (e : Nat) (v : Fv) (h : e < 40) : searchWindows s e v = v := by
  cases e with
  | zero => rfl
  | succ e =>
    show (if 40 ≤ e + 1 ∧ v.valOk = false then _ else v) = v
    rw [if_neg (by omega)]

/-- One try: the window at `a` is tested; the search ends there when it passes, and goes on with the
prefix one bit shorter when it does not. -/
theorem searchWindows_try (s : State) (a : Nat) (v : Fv) (h : v.valOk = false) :
    searchWindows s (a + 40) v =
      if (packWindow s a).passes then testWindow a (packWindow s a) v
      else searchWindows s (a + 39) (testWindow a (packWindow s a) v) := by
  show (if 40 ≤ (a + 39) + 1 ∧ v.valOk = false then
    searchWindows s (a + 39) (testWindow ((a + 39) + 1 - 40) (packWindow s ((a + 39) + 1 - 40)) v)
    else v) = _
  rw [if_pos ⟨by omega, h⟩, show a + 39 + 1 - 40 = a by omega]
  by_cases hp : (packWindow s a).passes = true
  · rw [if_pos hp]
    apply searchWindows_of_valOk
    simp only [testWindow, hp, if_true]
  · rw [if_neg hp]

end Sys2Proof.Machine
end

