-- ==== Sys2Proof/Tests/Slice0.lean ====
section
/-! SUPPORT. The model's own tests: expected values are the vectors of spec/95_test_vectors.md (named by
their ids) and the examples of the rules. Then a witness for the hypotheses of each statement. -/

namespace Sys2Proof.Tests

open Sys2Proof Sys2Proof.Machine

/-! ### Helpers -/

/-- The timestamp of a number of nanoseconds (the vectors write times so). -/
def stamp (t : Nat) : Timestamp := ⟨BitVec.ofNat 32 (t / 1000000000), BitVec.ofNat 30 (t % 1000000000)⟩

/-- The next state of an outcome, if it is one. -/
def nextOf : Host.Outcome State Fault Refusal → Option State
  | .next t => some t
  | .fault f => nomatch f
  | .refused _ => none

/-- The slots from index `i` on, filled with these levels and times. -/
def slotsFrom (i : Nat) : List (Level × Nat) → Memory
  | [] => []
  | (level, t) :: ts => (i, ⟨true, level, stamp t⟩) :: slotsFrom (i + 1) ts

/-- A state in CAPTURE after edges at these levels and times, with `prev` the last level. -/
def captured (c : Config) (prev : Level) (edges : List (Level × Nat)) : State :=
  { State.resetWith c with edr := ⟨true, prev, BitVec.ofNat 17 edges.length, slotsFrom 0 edges⟩ }

/-- A state in DECODED with the first `n` bits of `bits` decoded. -/
def decodedWith (n : BitVec 7) (bits : BitVec 64) (fault : BitVec 5) : State :=
  { State.reset with
    phase := .decoded
    pwd   := ⟨n, bits, insufficientOf n, false⟩
    fault := fault }

/-- A block with two slots. -/
def twoSlots : Config := { Config.default with transCap := 2 }

/-! ### Well-formedness -/

theorem test_wf_refuses_sample_nsec : Instr.wf (.sample true ⟨0, 1000000000⟩) = false := by decide

theorem test_wf_accepts_largest_sample : Instr.wf (.sample true ⟨4294967295, 999999999⟩) = true := by decide

/-! ### Words: the fields written out from R64 to R67, and vectors W-1 to W-29 -/

theorem test_decode_nop : decode (0x0#4 ++ 0#64) = .ok .nop := by decide

theorem test_decode_clear : decode (0x1#4 ++ 0#64) = .ok .clear := by decide

theorem test_decode_sample :
    decode (0b0010#4 ++ 0b0#1 ++ 0b1#1 ++ 1#32 ++ 50000#30) = .ok (.sample true ⟨1, 50000⟩) := by decide

theorem test_decode_decode : decode (0x3#4 ++ 0#64) = .ok .decode := by decide

theorem test_decode_validate : decode (0x4#4 ++ 0#64) = .ok .validate := by decide

theorem test_decode_rd : decode (0b0101#4 ++ 0#59 ++ 0b11111#5) = .ok (.rd 31) := by decide

theorem test_decode_rdt : decode (0b0110#4 ++ 0#48 ++ 65535#16) = .ok (.rdt 65535) := by decide

theorem test_decode_legal_words :
    decode 0x240000000000003E8#68 = .ok (.sample true ⟨0, 1000⟩) ∧
    decode 0x2000000003B9AC9FF#68 = .ok (.sample false ⟨0, 999999999⟩) ∧
    decode 0x27FFFFFFFFB9AC9FF#68 = .ok (.sample true ⟨4294967295, 999999999⟩) ∧
    decode 0x50000000000000008#68 = .ok (.rd 8) ∧
    decode 0x600000000000032C8#68 = .ok (.rdt 13000) := by decide

theorem test_decode_illegal_words :
    decode 0x00000000000000001#68 = .error .payloadNotZero ∧
    decode 0x18000000000000000#68 = .error .payloadNotZero ∧
    decode 0x2C0000000000003E8#68 = .error .sampleReservedBit ∧
    decode 0x2000000003B9ACA00#68 = .error .nsecOutOfRange ∧
    decode 0x2000000003FFFFFFF#68 = .error .nsecOutOfRange ∧
    decode 0x30000000000000010#68 = .error .payloadNotZero ∧
    decode 0x40000000100000000#68 = .error .payloadNotZero ∧
    decode 0x50000000000000020#68 = .error .rdReservedBits ∧
    decode 0x60000000000010000#68 = .error .rdtReservedBits ∧
    decode 0x80000000000000000#68 = .error .reservedOpcode ∧
    decode 0xFFFFFFFFFFFFFFFFF#68 = .error .reservedOpcode := by decide

theorem test_encode :
    encode .clear = 0x10000000000000000#68 ∧ encode (.sample true ⟨1, 50000⟩) = 0x2400000004000C350#68 ∧
    encode (.rd 7) = 0x50000000000000007#68 ∧ encode (.rdt 12999) = 0x600000000000032C7#68 := by decide

theorem test_decodeTableWord :
    decodeTableWord 72 0x2400000004000C350 = some (.sample true ⟨1, 50000⟩) ∧
    decodeTableWord 72 0x40000000000000000 = some .validate ∧
    decodeTableWord 72 0x70000000000000000 = none ∧
    decodeTableWord 72 0x100000000000000000 = none := by decide

/-- No word is a candidate for two rows: two rows always differ in a bit both masks cover. -/
theorem test_opcodeMap_no_overlap :
    opcodeMap.Pairwise (fun a b => a.pattern &&& b.mask ≠ b.pattern &&& a.mask) := by decide

/-! ### The assembler (R75, R76) -/

theorem test_asm_sample : parseLine "SAMPLE 1, 1, 50000 ; an edge".toList =
    some (.instr (.sample true ⟨1, 50000⟩)) := by decide

theorem test_asm_rd_name : (parseLine "RD WIN".toList).map AsmLine.words = some [0x50000000000000007#68] := by
  decide

theorem test_asm_smp_hex : parseLine "SMP 0, 0x3E8".toList = some (.smp false 1000) := by decide

theorem test_asm_word : (parseLine "WORD 2000000003B9ACA00".toList).map AsmLine.words =
    some [0x2000000003B9ACA00#68] := by decide

/-! ### The duration unit: vectors T-3, T-7, T-8, T-9 -/

theorem test_diff_borrow : diff ⟨5, 999990000⟩ ⟨6, 40000⟩ = some ⟨0, 50000⟩ ∧
    diff ⟨1, 500⟩ ⟨3, 499⟩ = some ⟨1, 999999999⟩ ∧ diff ⟨0, 999999999⟩ ⟨1, 0⟩ = some ⟨0, 1⟩ := by decide

theorem test_diff_err : diff ⟨2, 0⟩ ⟨1, 999999999⟩ = none ∧ diff ⟨7, 10⟩ ⟨7, 9⟩ = none := by decide

/-! ### Commands -/

/-- The host's view: the next step takes the word and runs it. -/
theorem test_step_withFetchWord :
    (nextOf (step (State.reset.withFetchWord 72 0x5000000000000001F))).map (fun t => (t.rsp, t.fault, t.port)) =
      some (some 0, 0b10000, []) := by decide

theorem test_nop : (nextOf (exec .nop (captured Config.default true [(true, 5)]))).map (·.edr.tcount) =
    some 1 := by decide

/-- C-3: CLEAR keeps SEQ_ERR and CMD_ERR, and empties the buffer. -/
theorem test_clear : (nextOf (exec .clear { captured Config.default true [(true, 5)] with
    phase := .done, fault := 0b11111 })).map (fun t => (t.phase, t.fault, t.edr)) =
    some (.capture, 0b11000, ⟨false, false, 0, []⟩) := by decide

/-- S-8, its last command. -/
theorem test_sample_edge : (nextOf (exec (.sample true (stamp 1800))
    (captured Config.default false [(true, 5), (false, 900)]))).map (·.edr) =
    some ⟨true, true, 3, slotsFrom 0 [(true, 5), (false, 900), (true, 1800)]⟩ := by decide

/-- S-11, its last command: the buffer is full, TR_OVF is set, `prev` is still updated. -/
theorem test_sample_overflow : (nextOf (exec (.sample true (stamp 30))
    (captured twoSlots false [(true, 10), (false, 20)]))).map (fun t => (t.edr.tcount, t.edr.prev, t.fault)) =
    some (2, true, 0b00001) := by decide

/-- D-19: three bits, 0 1 0. -/
theorem test_decode_bits : (nextOf (exec .decode (captured { Config.default with transCap := 8 } false
    [(true, 0), (false, 30000), (true, 80000), (false, 150000), (true, 200000), (false, 227000)]))).map
    (fun t => (t.pwd, t.fault, t.phase)) = some (⟨3, 0b010, true, false⟩, 0, .decoded) := by decide

/-- D-15: an earlier stamp on a transition to 1 sets TIME_ERR and the scan goes on. -/
theorem test_decode_time_err : (nextOf (exec .decode (captured { Config.default with transCap := 8 } false
    [(true, 100), (false, 130), (true, 120), (false, 200)]))).map
    (fun t => (t.pwd, t.fault)) = some (⟨2, 0, true, true⟩, 0b00100) := by decide

/-- V-12: two windows fail, the third passes. -/
theorem test_validate_third_window :
    (nextOf (exec .validate (decodedWith 42 0x32614782850 0))).map (fun t => (t.fv, t.phase)) =
      some (⟨true, 0, 3, ⟨0x0A, 0x14, 0x1E, 0x28, 0x64⟩, 2580, 7720⟩, .done) := by decide

/-- V-8: a more recent window that passes wins. -/
theorem test_validate_tie_break :
    (nextOf (exec .validate (decodedWith 41 0x02614782850 0))).map (·.fv) =
      some ⟨true, 1, 1, ⟨0x14, 0x28, 0x3C, 0x50, 0xC8⟩, 5160, 15440⟩ := by decide

/-- C-4: STATUS after reset with `PREV_INIT = 1`. -/
theorem test_rd_status : (nextOf (exec (.rd 0) (State.resetWith
    { Config.default with prevInit := .one }))).map (·.rsp) = some (some 0x60) := by decide

/-- FRAME after V-1. -/
theorem test_rd_frame : (nextOf (exec (.rd 5) { State.reset with
    fv := ⟨true, 0, 1, ⟨0x0A, 0x14, 0x1E, 0x28, 0x64⟩, 2580, 7720⟩ })).map (·.rsp) =
    some (some 0x0A141E2864) := by decide

/-- C-7: a filled slot. -/
theorem test_rdt_filled : (nextOf (exec (.rdt 0) (captured Config.default false [(false, 1000)]))).map
    (·.rsp) = some (some 0x80000000000003E8) := by decide

/-- C-9: the first index out of range. -/
theorem test_rdt_out_of_range : (nextOf (exec (.rdt 13000) State.reset)).map
    (fun t => (t.rsp, t.fault)) = some (some 0, 0b10000) := by decide

/-- The reset memory is canonical. -/
theorem test_reset_memory_canonical : Memory.wf State.reset.edr.tr := by decide

/-! ### States that meet the invariant -/

/-- Two edges, 30000 ns apart, and a SAMPLE offered. -/
def edgesState : State :=
  { captured Config.default false [(true, 1000), (false, 31000)] with
    port := [.command 0x24000000000013C68] }

/-- The slots of `edgesState`. -/
theorem edgesState_slot (i : Nat) : edgesState.slot i =
    if 0 = i then ⟨true, true, stamp 1000⟩ else if 1 = i then ⟨true, false, stamp 31000⟩ else Slot.empty := rfl

theorem inv_edgesState : Inv edgesState where
  cfgLegal := by decide
  trCanonical := by decide
  tcountBound := by decide
  trFilled := fun i hi => by
    have : i < 2 := hi
    revert i
    decide
  trEmpty := fun i hi => by
    have : 2 ≤ i := hi
    rw [edgesState_slot, if_neg (by omega), if_neg (by omega)]
  trAlternates := fun i h hi => by
    have : i < 2 := hi
    obtain rfl : i = 1 := by omega
    decide
  prevTracks := by decide
  trStamps := fun i hi => by
    have : i < 2 := hi
    revert i
    decide
  bcountBound := by decide
  bitsEmpty := fun i _ => by simp [edgesState, captured, State.resetWith, Pwd.cleared]
  captureClean := by decide
  decodedClean := by decide
  okImplies := by decide
  notOkZero := by decide

/-- `decodedWith` meets the invariant when its bits lie below its count. -/
theorem inv_decodedWith (n : BitVec 7) (bits : BitVec 64) (fault : BitVec 5) (hn : n.toNat ≤ 42)
    (hb : bits.toNat < 2 ^ n.toNat) : Inv (decodedWith n bits fault) where
  cfgLegal := by show Config.default.Legal; decide
  trCanonical := Memory.nil_wf
  tcountBound := Nat.zero_le _
  trFilled := fun i h => absurd h (Nat.not_lt_zero i)
  trEmpty := fun _ _ => rfl
  trAlternates := fun i _ h => absurd h (Nat.not_lt_zero i)
  prevTracks := fun h => absurd h (Nat.not_lt_zero 0)
  trStamps := fun i h => absurd h (Nat.not_lt_zero i)
  bcountBound := hn
  bitsEmpty := fun _ hi => Nat.testBit_lt_two_pow (Nat.lt_of_lt_of_le hb (Nat.pow_le_pow_right (by decide) hi))
  captureClean := fun h => Phase.noConfusion h
  decodedClean := fun _ => ⟨rfl, rfl⟩
  okImplies := fun h => Bool.noConfusion h
  notOkZero := fun _ => ⟨rfl, rfl, rfl⟩

/-! ### Witnesses: concrete values that meet the hypotheses of each statement -/

theorem witness_DecodeInvertsEncode : Instr.wf (.sample true ⟨4294967295, 999999999⟩) = true := by decide

theorem witness_DecodedWordIsItsEncoding :
    decode 0x27FFFFFFFFB9AC9FF#68 = .ok (.sample true ⟨4294967295, 999999999⟩) := by decide

/-- A word for each clause of the procedure, at both ends of the reserved opcodes. -/
theorem witness_DecodeFollowsProcedure :
    (0x00000000000000001#68).toNat / 2 ^ 64 = 0 ∧ (0x18000000000000000#68).toNat / 2 ^ 64 = 1 ∧
    (0x2000000003B9AC9FF#68).toNat / 2 ^ 64 = 2 ∧ (0x30000000000000010#68).toNat / 2 ^ 64 = 3 ∧
    (0x40000000100000000#68).toNat / 2 ^ 64 = 4 ∧ (0x5000000000000001F#68).toNat / 2 ^ 64 = 5 ∧
    (0x6000000000000FFFF#68).toNat / 2 ^ 64 = 6 ∧ 7 ≤ (0x70000000000000000#68).toNat / 2 ^ 64 ∧
    7 ≤ (0xFFFFFFFFFFFFFFFFF#68).toNat / 2 ^ 64 := by decide

/-- A candidate that decodes, and a SAMPLE candidate with the smallest `nsec` out of range. -/
theorem witness_OpcodeMapRowsAreExact :
    decode 0x5000000000000001F#68 = .ok (.rd 31) ∧ tableRow (.rd 0) ∈ opcodeMap ∧
    0x5000000000000001F#68 &&& (tableRow (.rd 0)).mask = (tableRow (.rd 0)).pattern ∧
    tableRow (.sample false ⟨0, 0⟩) ∈ opcodeMap ∧
    0x2000000003B9ACA00#68 &&& (tableRow (.sample false ⟨0, 0⟩)).mask =
      (tableRow (.sample false ⟨0, 0⟩)).pattern ∧
    (tableRow (.sample false ⟨0, 0⟩)).mnemonic = "SAMPLE" ∧
    1000000000 ≤ (0x2000000003B9ACA00#68).toNat % 2 ^ 30 := by decide

theorem witness_SmpIsSampleAtTime : 4294967295999999999 < 2 ^ 32 * 1000000000 := by decide

theorem witness_StepRunsDecodedCommand :
    edgesState.port = .command 0x24000000000013C68 :: [] ∧
    decode 0x24000000000013C68 = .ok (.sample true ⟨0, 81000⟩) := by decide

theorem witness_StepIllegalWordSetsCmdErrOnly :
    (State.reset.offer [0x70000000000000000]).port = .command 0x70000000000000000 :: [] ∧
    decode 0x70000000000000000 = .error .reservedOpcode := by decide

theorem witness_StepResetGivesResetState :
    ({ edgesState with port := [.reset, .command 0] } : State).port = .reset :: [.command 0] := rfl

theorem witness_StepIdleLosesNothing : (decodedWith 41 0x02614782850 0).port = [] := rfl

/-- A step with a read, and one without. -/
theorem witness_OnlyReadsRespond :
    (∃ t, step (edgesState.withFetchWord 72 0x50000000000000000) = .next t) ∧
    (∃ t, step edgesState = .next t) ∧
    (edgesState.withFetchWord 72 0x50000000000000000).port.head? = some (.command 0x50000000000000000) ∧
    decode 0x50000000000000000 = .ok (.rd 0) := ⟨⟨_, rfl⟩, ⟨_, rfl⟩, by decide, by decide⟩

theorem witness_StepKeepsConfiguration : ∃ t, step edgesState = .next t := ⟨_, rfl⟩

theorem witness_OutputsFollowState :
    ({ decodedWith 0 0 0b10001 with port := [.reset] } : State).port = .reset :: [] := rfl

theorem witness_NopChangesNothing :
    (0x0FFFFFFFFFFFFFFFF#68).toNat / 2 ^ 64 = 0 ∧ 0x0FFFFFFFFFFFFFFFF#68 ≠ 0 := by decide

theorem witness_ResetIsClearThenFaultZero :
    ({ decodedWith 0 0 0b11111 with port := [.reset] } : State).port = .reset :: [] := rfl

theorem witness_ClearForgetsTheAttempt :
    let s₁ := decodedWith 41 0x02614782850 0b01001
    let s₂ := { captured Config.default true [(true, 5)] with fault := 0b01100 }
    s₁ ≠ s₂ ∧ s₁.cfg = s₂.cfg ∧ s₁.port = s₂.port ∧ s₁.rsp = s₂.rsp ∧ s₁.responses = s₂.responses ∧
      s₁.flag .seqErr = s₂.flag .seqErr ∧ s₁.flag .cmdErr = s₂.flag .cmdErr := by decide

/-- The four clauses, the last two on either side of the capacity. -/
theorem witness_SampleRecordsEdges :
    let full := captured twoSlots false [(true, 10), (false, 20)]
    let oneFree := captured twoSlots true [(true, 10)]
    (decodedWith 0 0 0).cfg.Legal ∧ (decodedWith 0 0 0).phase ≠ .capture ∧
    full.cfg.Legal ∧ full.phase = .capture ∧ ¬ (full.edr.prevValid = false ∨ false ≠ full.edr.prev) ∧
    (full.edr.prevValid = false ∨ true ≠ full.edr.prev) ∧ full.cfg.transCap ≤ full.edr.tcount.toNat ∧
    oneFree.cfg.Legal ∧ oneFree.phase = .capture ∧
    (oneFree.edr.prevValid = false ∨ false ≠ oneFree.edr.prev) ∧
    oneFree.edr.tcount.toNat < oneFree.cfg.transCap := by decide

/-- A legal configuration for each value of `PREV_INIT`. -/
theorem witness_FirstSampleByPrevInit :
    (State.resetWith Config.default).cfg.Legal ∧
    (State.resetWith { Config.default with prevInit := .zero }).cfg.Legal ∧
    (State.resetWith { Config.default with prevInit := .one, transCap := 65536 }).cfg.Legal := by decide

theorem witness_RepeatedLevelRecordsNothing :
    (captured twoSlots false [(true, 10), (false, 20)]).phase = .capture := rfl

theorem witness_DiffIsExactDifference :
    (⟨0, 999999999⟩ : Timestamp).WellFormed ∧ (⟨1, 0⟩ : Timestamp).WellFormed ∧
    diff ⟨0, 999999999⟩ ⟨1, 0⟩ = some ⟨0, 1⟩ := by decide

/-- An earlier time by one nanosecond, and an equal one. -/
theorem witness_DiffErrExactlyWhenEarlier :
    (⟨2, 0⟩ : Timestamp).WellFormed ∧ (⟨1, 999999999⟩ : Timestamp).WellFormed ∧
    timeNs ⟨1, 999999999⟩ + 1 = timeNs ⟨2, 0⟩ := by decide

/-- A duration on each side of a constant, and a second with it. -/
theorem witness_DurationComparisonIsNumeric :
    (⟨0, 49999⟩ : Duration).dnsec.toNat < 1000000000 ∧ (⟨0, 50000⟩ : Duration).dnsec.toNat < 1000000000 ∧
    (⟨1, 0⟩ : Duration).dnsec.toNat < 1000000000 ∧ 0 < Config.default.threshNs ∧
    Config.default.threshNs < 1000000000 ∧ Config.default.threshNs = 50000 := by decide

theorem witness_ClassificationAndBand :
    Config.default.Legal ∧ (⟨0, 85001⟩ : Duration).dnsec.toNat < 1000000000 := by decide

theorem witness_DecodeComputesTheYieldedBits :
    Inv edgesState ∧ edgesState.phase = .capture ∧ yieldedBits edgesState = [false] :=
  ⟨inv_edgesState, rfl, by decide⟩

theorem witness_DecodeFrame : edgesState.phase = .capture := rfl

/-- Two such states, one with an idle port and another response record. -/
theorem witness_DecodeDependsOnTransitionsOnly :
    let other := { edgesState with port := [], responses := [7] }
    Inv edgesState ∧ Inv other ∧ edgesState ≠ other ∧ other.phase = .capture ∧
      edgesState.cfg = other.cfg ∧ edgesState.edr.tr = other.edr.tr := by
  have h := inv_edgesState
  exact ⟨h, ⟨h.cfgLegal, h.trCanonical, h.tcountBound, h.trFilled, h.trEmpty, h.trAlternates, h.prevTracks,
    h.trStamps, h.bcountBound, h.bitsEmpty, h.captureClean, h.decodedClean, h.okImplies, h.notOkZero⟩,
    by decide, rfl, rfl, rfl⟩

/-- V-5: 42 zeros, the window at 2 passes and none after it; V-1: 40 bits, the only window. -/
theorem witness_ValidateAcceptsMostRecentWindow :
    (Inv (decodedWith 42 0 0) ∧ (decodedWith 42 0 0).attemptFlags = 0 ∧
      windowPasses (decodedWith 42 0 0) 2 ∧ ∀ b, 2 < b → ¬ windowPasses (decodedWith 42 0 0) b) ∧
    (Inv (decodedWith 40 0x02614782850 0b11000) ∧ (decodedWith 40 0x02614782850 0b11000).attemptFlags = 0 ∧
      windowPasses (decodedWith 40 0x02614782850 0b11000) 0 ∧
      ∀ b, 0 < b → ¬ windowPasses (decodedWith 40 0x02614782850 0b11000) b) := by
  refine ⟨⟨inv_decodedWith _ _ _ (by decide) (by decide), by decide, by unfold windowPasses; decide, ?_⟩,
    ⟨inv_decodedWith _ _ _ (by decide) (by decide), by decide, by unfold windowPasses; decide, ?_⟩⟩
  · intro b hb hw
    have : b + 40 ≤ 42 := hw.1
    omega
  · intro b hb hw
    have : b + 40 ≤ 40 := hw.1
    omega

/-- V-7: 40 ones, the only window fails; V-14: 39 bits, no window. -/
theorem witness_ValidateFailureLeavesZeroResults :
    (Inv (decodedWith 40 0xFFFFFFFFFF 0) ∧ (decodedWith 40 0xFFFFFFFFFF 0).attemptFlags = 0 ∧
      ∀ a, ¬ windowPasses (decodedWith 40 0xFFFFFFFFFF 0) a) ∧
    (Inv (decodedWith 39 0 0) ∧ (decodedWith 39 0 0).attemptFlags = 0 ∧
      ∀ a, ¬ windowPasses (decodedWith 39 0 0) a) := by
  refine ⟨⟨inv_decodedWith _ _ _ (by decide) (by decide), by decide, ?_⟩,
    ⟨inv_decodedWith _ _ _ (by decide) (by decide), by decide, ?_⟩⟩
  · intro a hw
    have : a + 40 ≤ 40 := hw.1
    obtain rfl : a = 0 := by omega
    revert hw
    unfold windowPasses
    decide
  · intro a hw
    have : a + 40 ≤ 39 := hw.1
    omega

/-- Each flag of the attempt; and two values of FAULT that agree on them. -/
theorem witness_ValidateRejectsDamagedAttempt :
    Inv (decodedWith 40 0x02614782850 0b00001) ∧ (decodedWith 40 0x02614782850 0b00001).flag .trOvf = true ∧
    Inv (decodedWith 40 0x02614782850 0b00010) ∧ (decodedWith 40 0x02614782850 0b00010).flag .bitOvf = true ∧
    Inv (decodedWith 40 0x02614782850 0b00100) ∧ (decodedWith 40 0x02614782850 0b00100).flag .timeErr = true ∧
    (0b11000#5).extractLsb' 0 3 = (decodedWith 40 0x02614782850 0).fault.extractLsb' 0 3 :=
  ⟨inv_decodedWith _ _ _ (by decide) (by decide), by decide,
    inv_decodedWith _ _ _ (by decide) (by decide), by decide,
    inv_decodedWith _ _ _ (by decide) (by decide), by decide, by decide⟩

theorem witness_ValidateFrame : (decodedWith 40 0x02614782850 0).phase = .decoded := rfl

/-- The last register and the first reserved number. -/
theorem witness_RdRespondsOrIsRefused : (7#5).toNat < 8 ∧ 8 ≤ (8#5).toNat := by decide

theorem witness_CounterRegistersLayout : (7#5) = 2 ∨ (7#5) = 3 ∨ (7#5) = 7 := by decide

/-- The last entry and the first bit past it, at the smallest capacity. -/
theorem witness_BitsrRegisterLayout :
    (State.resetWith { Config.default with bitCap := 40 }).cfg.Legal ∧
    39 < (State.resetWith { Config.default with bitCap := 40 }).cfg.bitCap ∧
    (State.resetWith { Config.default with bitCap := 40 }).cfg.bitCap ≤ 40 := by decide

/-- The bytes of V-1 held with its bits. -/
theorem witness_FrameRegisterLayout :
    let s := { decodedWith 40 0x02614782850 0 with
      fv := ⟨true, 0, 1, ⟨0x0A, 0x14, 0x1E, 0x28, 0x64⟩, 2580, 7720⟩ }
    s.fv.frame = packWindow s 0 := by decide

/-- The last index and the first out of range; an empty slot. -/
theorem witness_RdtRespondsOrIsRefused :
    (12999#16).toNat < State.reset.cfg.transCap ∧ State.reset.cfg.transCap ≤ (13000#16).toNat ∧
    State.reset.slot (12999#16).toNat = Slot.empty := by decide

theorem witness_ReadsAreIdempotent : (7#5).toNat < 8 ∧ (12999#16).toNat < State.reset.cfg.transCap := by decide

/-- Each cell marked SEQ, and an ILLEGAL word. -/
theorem witness_WrongPhaseSetsSeqErrOnly :
    outOfPhase .capture .validate = true ∧ outOfPhase .decoded (.sample true ⟨0, 0⟩) = true ∧
    outOfPhase .decoded .decode = true ∧ outOfPhase .done (.sample true ⟨0, 0⟩) = true ∧
    outOfPhase .done .decode = true ∧ outOfPhase .done .validate = true ∧
    decode 0x2C0000000000003E8#68 = .error .sampleReservedBit := by decide

theorem witness_PhaseTable :
    decode 0x10000000000000001#68 = .error .payloadNotZero ∧
    ({ decodedWith 0 0 0 with port := [.reset] } : State).port = .reset :: [] := by decide

/-- A set flag before an ordinary command, before a CLEAR, and before a reset. -/
theorem witness_FaultFlagsAreSticky :
    let s := decodedWith 0 0 0b00001
    s.flag .trOvf = true ∧
    (∃ t, step (s.withFetchWord 72 0) = .next t) ∧
    (∃ t, step (s.withFetchWord 72 0x10000000000000000) = .next t) ∧
    (∃ t, step { s with port := [.reset] } = .next t) ∧
    (s.withFetchWord 72 0x10000000000000000).port = .command 0x10000000000000000 :: [] ∧
    decode 0x10000000000000000 = .ok .clear ∧ ({ s with port := [.reset] } : State).port = .reset :: [] :=
  ⟨by decide, ⟨_, rfl⟩, ⟨_, rfl⟩, ⟨_, rfl⟩, by decide, by decide, rfl⟩

/-- A command that raises each flag from 0. -/
theorem witness_FlagRaisersAreThoseListed :
    (∃ t, exec (.sample true (stamp 30)) (captured twoSlots false [(true, 10), (false, 20)]) = .next t ∧
      t.flag .trOvf = true) ∧
    (∃ t, exec .decode { captured twoSlots false [(true, 0), (false, 30000)] with
        pwd := ⟨42, 0, false, false⟩ } = .next t ∧ t.flag .bitOvf = true) ∧
    (∃ t, exec .decode (captured twoSlots false [(true, 100), (false, 50)]) = .next t ∧
      t.flag .timeErr = true) ∧
    (∃ t, exec .validate State.reset = .next t ∧ t.flag .seqErr = true) ∧
    (∃ t, exec (.rd 8) State.reset = .next t ∧ t.flag .cmdErr = true) ∧
    (captured twoSlots false [(true, 10), (false, 20)]).fault = 0 ∧ State.reset.fault = 0 :=
  ⟨⟨_, rfl, by decide⟩, ⟨_, rfl, by decide⟩, ⟨_, rfl, by decide⟩, ⟨_, rfl, by decide⟩,
    ⟨_, rfl, by decide⟩, rfl, rfl⟩

theorem witness_AtMostOneFlagPerCommand :
    (Instr.rd 8) ≠ .decode ∧ State.reset.flag .cmdErr = false ∧
    ∃ t, exec (.rd 8) State.reset = .next t ∧ t.flag .cmdErr = true :=
  ⟨by decide, by decide, ⟨_, rfl, by decide⟩⟩

/-- Both ends of the ranges of R7. -/
theorem witness_ResetMeetsInvariant :
    Config.Legal ⟨40, 1, 0, 0, 2, .none⟩ ∧
    Config.Legal ⟨64, 999999999, 999999999, 999999999, 65536, .one⟩ := by decide

theorem witness_StepKeepsInvariant : Inv edgesState ∧ ∃ t, step edgesState = .next t :=
  ⟨inv_edgesState, ⟨_, rfl⟩⟩

theorem witness_EveryRunCompletesWithInvariant : Config.default.Legal := by decide

/-! ### A reachable Measurement -/

/-- The commands of program P2 for these bits: after a sample at level 1, for each bit a sample at level 0
after 27000 ns or 70000 ns and a sample at level 1 another 50000 ns later. -/
def bitSamples (t : Nat) : List Bool → List CmdWord
  | [] => []
  | b :: bs =>
    let fall := t + (if b then 70000 else 27000)
    encode (.sample false (stamp fall)) :: encode (.sample true (stamp (fall + 50000))) ::
      bitSamples (fall + 50000) bs

/-- Program P2 without its reads: CLEAR, a sample at 1000, the frame `0A 14 1E 28 64`, DECODE, VALIDATE. -/
def programP2 : List PortEvent :=
  ([encode .clear, encode (.sample true (stamp 1000))] ++
    bitSamples 1000 ((List.range 40).map (fun k => (0x0A141E2864#40).getLsbD (39 - k))) ++
    [encode .decode, encode .validate]).map .command

/-- The run of program P2 ends with `val_ok = 1`, `hum` 2580 and `temp` 7720. -/
theorem test_programP2 :
    (nextOf (Sys2Proof.core.run 84 (State.offered Config.default programP2))).map State.measurement =
      some (some (2580, 7720)) := by decide +kernel

theorem witness_MeasurementComesFromIntactFrame :
    ∃ s, Reachable s ∧ s.measurement = some (2580, 7720) := by
  have h := test_programP2
  revert h
  cases hr : Sys2Proof.core.run 84 (State.offered Config.default programP2) with
  | next s =>
    intro h
    exact ⟨s, ⟨Config.default, programP2, 84, by decide, hr⟩, Option.some.inj h⟩
  | fault f => exact fun _ => nomatch f
  | refused r => exact fun h => nomatch h

end Sys2Proof.Tests
end

/-! PROOFS. One step as a whole: it always completes, takes one event and keeps the parameters
(spec/00_scope.md R13, R16, R17); every step keeps the invariant of spec/10_state.md R43, and so does every
run from reset (R19). -/

namespace Sys2Proof.Machine

/-! ### What a step is, from the event that stands first -/

theorem step_of_idle {s : State} (hp : s.port = []) : step s = .next (idle s) := by
  simp only [step, hp]

theorem step_of_reset {s : State} {rest : List PortEvent} (hp : s.port = .reset :: rest) :
    step s = .next (takeReset rest s) := by
  simp only [step, hp]

theorem step_of_decode_ok {s : State} {w : CmdWord} {rest : List PortEvent} {i : Instr}
    (hp : s.port = .command w :: rest) (hd : decode w = .ok i) :
    step s = exec i (takeCommand rest s) := by
  simp only [step, hp, runWord, hd]

theorem step_of_decode_error {s : State} {w : CmdWord} {rest : List PortEvent} {e : Illegal}
    (hp : s.port = .command w :: rest) (hd : decode w = .error e) :
    step s = .next (raise .cmdErr (takeCommand rest s)) := by
  simp only [step, hp, runWord, hd, execIllegal]

/-- EDTR is never stuck (00_scope.md R17). -/
theorem step_next (s : State) : ∃ t, step s = .next t := by
  match hp : s.port with
  | [] => exact ⟨_, step_of_idle hp⟩
  | .reset :: rest => exact ⟨_, step_of_reset hp⟩
  | .command w :: rest =>
    match hd : decode w with
    | .ok i => rw [step_of_decode_ok hp hd]; exact exec_next i _
    | .error e => exact ⟨_, step_of_decode_error hp hd⟩

/-- A step keeps the parameters and takes the first event, if there is one. -/
theorem step_cfg_port {s t : State} (h : step s = .next t) :
    t.cfg = s.cfg ∧ t.port = s.port.tail := by
  obtain ⟨hp, rfl⟩ | ⟨rest, hp, rfl⟩ | ⟨w, rest, hp, ⟨i, -, hx⟩ | ⟨e, -, rfl⟩⟩ := step_cases s t h
  · exact ⟨rfl, by rw [hp]; exact hp⟩
  · exact ⟨rfl, by rw [hp]; rfl⟩
  · rw [hp]
    exact exec_cfg_port i (takeCommand rest s) t hx
  · exact ⟨rfl, by rw [hp]; rfl⟩

/-! ### Commands that come from a word are well-formed -/

theorem eq_of_decodeZ_ok {i j : Instr} {w : CmdWord} (h : decodeZ i w = .ok j) : j = i := by
  unfold decodeZ at h
  split at h <;> cases h
  rfl

theorem wf_of_decodeS_ok {i : Instr} {w : CmdWord} (h : decodeS w = .ok i) : i.wf = true := by
  unfold decodeS at h
  split at h
  · cases h
  · split at h <;> cases h
    exact decide_eq_true ‹_›

theorem wf_of_decodeR_ok {i : Instr} {w : CmdWord} (h : decodeR w = .ok i) : i.wf = true := by
  unfold decodeR at h
  split at h <;> cases h
  rfl

theorem wf_of_decodeT_ok {i : Instr} {w : CmdWord} (h : decodeT w = .ok i) : i.wf = true := by
  unfold decodeT at h
  split at h <;> cases h
  rfl

/-- The decoder lets no ill-formed timestamp through (30_encoding.md R72). -/
theorem wf_of_decode_ok {i : Instr} {w : CmdWord} (h : decode w = .ok i) : i.wf = true := by
  unfold decode at h
  split at h
  · rw [eq_of_decodeZ_ok h]; rfl
  · rw [eq_of_decodeZ_ok h]; rfl
  · exact wf_of_decodeS_ok h
  · rw [eq_of_decodeZ_ok h]; rfl
  · rw [eq_of_decodeZ_ok h]; rfl
  · exact wf_of_decodeR_ok h
  · exact wf_of_decodeT_ok h
  · cases h

/-! ### The invariant: reset, and what it does not look at -/

/-- The reset state of a legal configuration meets the invariant (10_state.md R43, R44). -/
theorem inv_resetWith {c : Config} (hc : c.Legal) : Inv (State.resetWith c) where
  cfgLegal := hc
  trCanonical := Memory.nil_wf
  tcountBound := Nat.zero_le _
  trFilled := fun i h => absurd h (Nat.not_lt_zero i)
  trEmpty := fun _ _ => rfl
  trAlternates := fun i _ h => absurd h (Nat.not_lt_zero i)
  prevTracks := fun h => absurd h (Nat.lt_irrefl 0)
  trStamps := fun i h => absurd h (Nat.not_lt_zero i)
  bcountBound := Nat.zero_le _
  bitsEmpty := fun _ _ => BitVec.getLsbD_zero
  captureClean := fun _ => ⟨rfl, (by decide : (0#5).extractLsb' 1 2 = 0), rfl⟩
  decodedClean := fun h => Phase.noConfusion h
  okImplies := fun h => Bool.noConfusion h
  notOkZero := fun _ => ⟨rfl, rfl, rfl⟩

/-- The invariant does not look at the ports, nor at FAULT beyond the attempt flags. -/
theorem Inv.of_same_registers {s t : State} (h : Inv s) (hc : t.cfg = s.cfg)
    (hp : t.phase = s.phase) (he : t.edr = s.edr) (hw : t.pwd = s.pwd) (hv : t.fv = s.fv)
    (hf : t.fault.extractLsb' 1 2 = s.fault.extractLsb' 1 2 ∧ t.attemptFlags = s.attemptFlags) :
    Inv t := by
  obtain ⟨cfg, phase, edr, pwd, fv, fault, port, rsp, responses⟩ := t
  obtain rfl : cfg = s.cfg := hc
  obtain rfl : phase = s.phase := hp
  obtain rfl : edr = s.edr := he
  obtain rfl : pwd = s.pwd := hw
  obtain rfl : fv = s.fv := hv
  exact { h with
    captureClean := fun hp => by
      obtain ⟨hw, hd, hv⟩ := h.captureClean hp
      exact ⟨hw, hf.1.trans hd, hv⟩
    okImplies := fun hok => by
      obtain ⟨hp, ha, hrest⟩ := h.okImplies hok
      exact ⟨hp, hf.2.trans ha, hrest⟩ }

theorem Inv.raise_host {s : State} (h : Inv s) {f : FaultFlag} (hf : f = .seqErr ∨ f = .cmdErr) :
    Inv (raise f s) :=
  h.of_same_registers rfl rfl rfl rfl rfl (raise_host_flags f hf s)

theorem Inv.endResponse {s : State} (h : Inv s) : Inv (endResponse s) :=
  h.of_same_registers rfl rfl rfl rfl rfl ⟨rfl, rfl⟩

theorem Inv.takeCommand {s : State} (h : Inv s) (rest : List PortEvent) :
    Inv (takeCommand rest s) :=
  h.of_same_registers rfl rfl rfl rfl rfl ⟨rfl, rfl⟩

theorem Inv.takeReset {s : State} (h : Inv s) (rest : List PortEvent) : Inv (takeReset rest s) :=
  (inv_resetWith h.cfgLegal).of_same_registers rfl rfl rfl rfl rfl ⟨rfl, rfl⟩

theorem Inv.respond {s : State} (h : Inv s) (v : RegWord) : Inv (respond v s) :=
  h.of_same_registers rfl rfl rfl rfl rfl ⟨rfl, rfl⟩

/-- No result stands while an attempt is open. -/
theorem Inv.valOk_eq_false_of_capture {s : State} (h : Inv s) (hp : s.phase = .capture) :
    s.fv.valOk = false := by
  obtain ⟨-, -, hv⟩ := h.captureClean hp
  rw [hv]
  rfl

/-! ### NOP, CLEAR, RD and RDT keep the invariant -/

theorem execNop_keeps_inv {s t : State} (h : Inv s) (hx : execNop s = .next t) : Inv t := by
  cases hx
  exact h

theorem execClear_keeps_inv {s t : State} (h : Inv s) (hx : execClear s = .next t) : Inv t := by
  cases hx
  have hflags : ∀ x : BitVec 5,
      (x &&& 0b11000).extractLsb' 1 2 = (0#5).extractLsb' 1 2 ∧
      (x &&& 0b11000).extractLsb' 0 3 = (0#5).extractLsb' 0 3 := by decide
  exact (inv_resetWith h.cfgLegal).of_same_registers rfl rfl rfl rfl rfl (hflags s.fault)

theorem execRd_keeps_inv {s t : State} {reg : BitVec 5} (h : Inv s)
    (hx : execRd reg s = .next t) : Inv t := by
  unfold execRd at hx
  split at hx <;> cases hx
  · exact h.respond _
  · exact (h.raise_host (.inr rfl)).respond _

theorem execRdt_keeps_inv {s t : State} {idx : BitVec 16} (h : Inv s)
    (hx : execRdt idx s = .next t) : Inv t := by
  unfold execRdt at hx
  split at hx <;> cases hx
  · exact h.respond _
  · exact (h.raise_host (.inr rfl)).respond _

/-! ### SAMPLE keeps the invariant (41_capture.md R83) -/

theorem isEdge_eq_true_iff (l : Level) (s : State) :
    isEdge l s = true ↔ s.edr.prevValid = false ∨ l ≠ s.edr.prev := by
  simp [isEdge]

/-- A sample at the previous level changes nothing. -/
theorem setPrev_of_not_isEdge {l : Level} {s : State} (h : ¬ isEdge l s = true) :
    setPrev l s = s := by
  obtain ⟨hv, hl⟩ : s.edr.prevValid = true ∧ l = s.edr.prev := by
    simpa [isEdge_eq_true_iff] using h
  rw [setPrev, hl, ← hv]

/-- With the buffer full, an edge sets TR_OVF and moves `prev`, which item 2 no longer looks at. -/
theorem Inv.overflow_edge {s : State} (h : Inv s) (hp : s.phase = .capture)
    (hfull : s.cfg.transCap ≤ s.edr.tcount.toNat) (l : Level) :
    Inv (setPrev l (raise .trOvf s)) :=
  { h with
    prevTracks := fun _ => ⟨rfl, fun hroom => absurd hroom (Nat.not_lt.2 hfull)⟩
    captureClean := fun _ => by
      obtain ⟨hw, hd, hv⟩ := h.captureClean hp
      have keeps : ∀ x : BitVec 5, (x ||| 0b00001).extractLsb' 1 2 = x.extractLsb' 1 2 := by decide
      exact ⟨hw, (keeps s.fault).trans hd, hv⟩
    okImplies := fun hok => absurd hok (by simp [h.valOk_eq_false_of_capture hp]) }

/-- The buffer after an edge has been recorded. -/
theorem recordTransition_slot (l : Level) (tm : Timestamp) (s : State) (i : Nat) :
    (recordTransition l tm s).slot i =
      if i = s.edr.tcount.toNat then ⟨true, l, tm⟩ else s.slot i := by
  split
  · subst i
    exact Memory.read_write_filled _ _ _ (by simp [Slot.empty])
  · exact Memory.read_write_other _ _ _ _ ‹_›

/-- `tcount` has room for the count of the largest capacity (10_state.md R24). -/
theorem recordTransition_tcount_toNat (l : Level) (tm : Timestamp) {s : State} (hc : s.cfg.Legal)
    (hroom : s.edr.tcount.toNat < s.cfg.transCap) :
    (recordTransition l tm s).edr.tcount.toNat = s.edr.tcount.toNat + 1 := by
  obtain ⟨-, -, -, -, hcap⟩ := hc
  refine BitVec.toNat_add_of_lt ?_
  simp
  omega

/-- With room, an edge goes into slot `tcount`; its level differs from that of the slot before because
`prev` is the level of that slot. -/
theorem Inv.recorded_edge {s : State} (h : Inv s) {l : Level} {tm : Timestamp}
    (htm : tm.WellFormed) (hedge : isEdge l s = true)
    (hroom : s.edr.tcount.toNat < s.cfg.transCap) :
    Inv (setPrev l (recordTransition l tm s)) := by
  have hcount : (setPrev l (recordTransition l tm s)).edr.tcount.toNat = s.edr.tcount.toNat + 1 :=
    recordTransition_tcount_toNat l tm h.cfgLegal hroom
  have hslot : ∀ i, (setPrev l (recordTransition l tm s)).slot i =
      if i = s.edr.tcount.toNat then ⟨true, l, tm⟩ else s.slot i := recordTransition_slot l tm s
  have hdiffers : 1 ≤ s.edr.tcount.toNat → l ≠ (s.slot (s.edr.tcount.toNat - 1)).toLevel := by
    intro hpos
    obtain ⟨hvalid, hprev⟩ := h.prevTracks hpos
    rw [← hprev hroom]
    simpa [isEdge_eq_true_iff, hvalid] using hedge
  exact { h with
    trCanonical := Memory.write_wf _ _ _ h.trCanonical
    tcountBound := hcount.trans_le hroom
    trFilled := fun i hi => by
      rw [hslot]
      split
      · rfl
      · exact h.trFilled i (by omega)
    trEmpty := fun i hi => by
      rw [hslot, if_neg (by omega)]
      exact h.trEmpty i (by omega)
    trAlternates := fun i hpos hi => by
      rw [hslot, hslot, if_neg (show i - 1 ≠ s.edr.tcount.toNat by omega)]
      split
      · subst i
        exact hdiffers hpos
      · exact h.trAlternates i hpos (by omega)
    prevTracks := fun _ => ⟨rfl, fun _ => by rw [hcount, hslot, if_pos (by omega)]; rfl⟩
    trStamps := fun i hi => by
      rw [hslot]
      split
      · exact htm
      · exact h.trStamps i (by omega) }

theorem execSample_keeps_inv {s t : State} {l : Level} {tm : Timestamp} (h : Inv s)
    (htm : tm.WellFormed) (hx : execSample l tm s = .next t) : Inv t := by
  unfold execSample at hx
  split at hx <;> cases hx
  next hp =>
    split
    next hedge =>
      unfold captureEdge
      split
      next hroom => exact h.recorded_edge htm hedge hroom
      next hfull => exact h.overflow_edge hp (Nat.not_lt.1 hfull) l
    next hlevel =>
      rw [setPrev_of_not_isEdge hlevel]
      exact h
  next => exact h.raise_host (.inl rfl)

/-! ### DECODE keeps the invariant (42_decode.md R87 to R92) -/

/-- R43 item 4: the bits held are within the capacity, and nothing stands above them. -/
def BitsFit (s : State) : Prop :=
  s.pwd.bcount.toNat ≤ s.cfg.bitCap ∧
    ∀ i, s.pwd.bcount.toNat ≤ i → s.pwd.bits.getLsbD i = false

theorem Inv.bitsFit {s : State} (h : Inv s) : BitsFit s := ⟨h.bcountBound, h.bitsEmpty⟩

/-- `bcount` has room for the count of the largest capacity (10_state.md R26). -/
theorem bcount_succ_toNat {s : State} (hc : s.cfg.Legal)
    (hroom : s.pwd.bcount.toNat < s.cfg.bitCap) :
    (s.pwd.bcount + 1).toNat = s.pwd.bcount.toNat + 1 := by
  obtain ⟨⟨-, hcap⟩, -⟩ := hc
  refine BitVec.toNat_add_of_lt ?_
  simp
  omega

theorem appendBit_keeps_fit {s : State} (hc : s.cfg.Legal) (h : BitsFit s) (b : Bool) :
    BitsFit (appendBit b s) := by
  obtain ⟨hroom, e⟩ | ⟨-, e⟩ := appendBit_cases b s
  · obtain ⟨-, hempty⟩ := h
    have hcount := bcount_succ_toNat hc hroom
    have hcap : s.cfg.bitCap ≤ 64 := hc.1.2
    rw [e]
    refine ⟨hcount.trans_le hroom, fun i hi => ?_⟩
    have hi : s.pwd.bcount.toNat + 1 ≤ i := hcount.symm.trans_le hi
    calc (writeBit s.pwd.bits s.pwd.bcount.toNat b).getLsbD i
        = s.pwd.bits.getLsbD i := by
          rw [writeBit_getLsbD _ _ _ _ (by omega), if_neg (by omega)]
      _ = false := hempty i (by omega)
  · rw [e]
    exact h

theorem decodeSlot_keeps_fit {s : State} (hc : s.cfg.Legal) (h : BitsFit s) (i : Nat) :
    BitsFit (decodeSlot i s) := by
  unfold decodeSlot
  split
  · exact h
  next d _ =>
    split
    · exact appendBit_keeps_fit (s := flagBand d s) hc h _
    · exact h

theorem decodeLoop_keeps_fit (n : Nat) : ∀ {s : State} (i : Nat), s.cfg.Legal → BitsFit s →
    BitsFit (decodeLoop n i s) := by
  induction n with
  | zero => exact fun _ _ h => h
  | succ n ih =>
    intro s i hc h
    have hc' : (decodeSlot i s).cfg.Legal := by rwa [decodeSlot_frame]
    simp only [decodeLoop]
    split
    · exact ih (i + 1) hc' (decodeSlot_keeps_fit hc h i)
    · exact h

/-- The end of DECODE, whatever bits and flags its loop has left. -/
theorem Inv.finishDecode {s : State} (h : Inv s) (hp : s.phase = .capture) {w : Pwd}
    {f : BitVec 5} (hfit : BitsFit { s with pwd := w, fault := f }) :
    Inv (finishDecode { s with pwd := w, fault := f }) :=
  { h with
    bcountBound := hfit.1
    bitsEmpty := hfit.2
    captureClean := fun h => Phase.noConfusion h
    decodedClean := fun _ => by
      obtain ⟨-, -, hv⟩ := h.captureClean hp
      exact ⟨hv, rfl⟩
    okImplies := fun hok => absurd hok (by simp [h.valOk_eq_false_of_capture hp]) }

theorem execDecode_keeps_inv {s t : State} (h : Inv s) (hx : execDecode s = .next t) : Inv t := by
  by_cases hp : s.phase = .capture
  · have hfit := decodeLoop_keeps_fit (s.cfg.transCap - 1) 1 h.cfgLegal h.bitsFit
    rw [decodeLoop_frame] at hfit
    rw [execDecode_capture s hp, decodeLoop_frame] at hx
    cases hx
    exact h.finishDecode hp hfit
  · simp only [execDecode, if_neg hp] at hx
    cases hx
    exact h.raise_host (.inl rfl)

/-! ### VALIDATE keeps the invariant (43_validate.md R94 to R99) -/

/-- R43 items 7 and 8, what they say of FV's registers alone when `n` bits are held: an accepted window
lies within the bits, its checksum matches and the results are read from its bytes; with no window
accepted the results are 0. -/
structure Fv.Sound (n : Nat) (v : Fv) : Prop where
  accepted : v.valOk = true → 40 ≤ n ∧ v.winStart.toNat ≤ n - 40 ∧
    (v.frame.byte0.toNat + v.frame.byte1.toNat + v.frame.byte2.toNat + v.frame.byte3.toNat) % 256 =
      v.frame.byte4.toNat ∧
    v.hum.toNat = v.frame.byte0.toNat * 256 + v.frame.byte1.toNat ∧
    v.temp.toNat = v.frame.byte2.toNat * 256 + v.frame.byte3.toNat
  rejected : v.valOk = false → v.hum = 0 ∧ v.temp = 0 ∧ v.winStart = 0

theorem Inv.fv_sound {s : State} (h : Inv s) : s.fv.Sound s.pwd.bcount.toNat where
  accepted := fun hok => by
    obtain ⟨-, -, hwindow⟩ := h.okImplies hok
    exact hwindow
  rejected := h.notOkZero

/-- The checksum test as arithmetic (43_validate.md R97). -/
theorem Frame.passes_iff (f : Frame) : f.passes = true ↔
    (f.byte0.toNat + f.byte1.toNat + f.byte2.toNat + f.byte3.toNat) % 256 = f.byte4.toNat := by
  rw [Frame.passes, beq_iff_eq, ← BitVec.toNat_inj, Frame.checksum]
  simp only [BitVec.toNat_add]
  omega

/-- A try within the bits held keeps FV sound: `win_start` is wide enough for every start index. -/
theorem testWindow_sound {n a : Nat} {v : Fv} (ha : a + 40 ≤ n) (hn : n ≤ 64) (f : Frame)
    (h : v.Sound n) (hv : v.valOk = false) : (testWindow a f v).Sound n := by
  unfold testWindow
  split
  next hpass =>
    have hstart : (BitVec.ofNat 8 a).toNat = a := Nat.mod_eq_of_lt (by omega)
    exact {
      accepted := fun _ => ⟨by omega, by simp only [hstart]; omega, (Frame.passes_iff f).1 hpass,
        append_toNat _ _, append_toNat _ _⟩
      rejected := fun h => Bool.noConfusion h }
  next =>
    exact {
      accepted := fun hok => absurd hok (by simp [hv])
      rejected := h.rejected }

theorem searchWindows_sound (s : State) {n : Nat} (hn : n ≤ 64) (e : Nat) :
    ∀ v : Fv, e ≤ n → v.Sound n → (searchWindows s e v).Sound n := by
  induction e with
  | zero => exact fun _ _ h => h
  | succ e ih =>
    intro v he h
    simp only [searchWindows]
    split
    next hgo =>
      obtain ⟨hlong, hv⟩ : 40 ≤ e + 1 ∧ v.valOk = false := hgo
      have hfits : e + 1 - 40 + 40 ≤ n := by omega
      exact ih _ (by omega) (testWindow_sound hfits hn _ h hv)
    next => exact h

/-- The end of VALIDATE, whatever its search has left in FV. -/
theorem Inv.finishValidate {s : State} (h : Inv s) {v : Fv} (hv : v.Sound s.pwd.bcount.toNat)
    (hflags : v.valOk = true → s.attemptFlags = 0) : Inv { s with fv := v, phase := .done } :=
  { h with
    captureClean := fun h => Phase.noConfusion h
    decodedClean := fun h => Phase.noConfusion h
    okImplies := fun hok => ⟨rfl, hflags hok, hv.accepted hok⟩
    notOkZero := hv.rejected }

theorem execValidate_keeps_inv {s t : State} (h : Inv s) (hx : execValidate s = .next t) :
    Inv t := by
  by_cases hp : s.phase = .decoded
  · rw [execValidate_decoded s hp] at hx
    cases hx
    have hheld : s.pwd.bcount.toNat ≤ 64 := h.bcountBound.trans h.cfgLegal.1.2
    split
    next hflags =>
      exact h.finishValidate (searchWindows_sound s hheld _ _ le_rfl h.fv_sound) fun _ => hflags
    next =>
      refine h.finishValidate h.fv_sound fun hok => ?_
      obtain ⟨-, hflags, -⟩ := h.okImplies hok
      exact hflags
  · simp only [execValidate, if_neg hp] at hx
    cases hx
    exact h.raise_host (.inl rfl)

/-! ### Every step and every run keep the invariant -/

/-- Every well-formed command keeps the invariant (10_state.md R43). -/
theorem exec_keeps_inv {s t : State} {i : Instr} (h : Inv s) (hi : i.wf = true)
    (hx : exec i s = .next t) : Inv t := by
  cases i with
  | nop => exact execNop_keeps_inv h hx
  | clear => exact execClear_keeps_inv h hx
  | sample level tm => exact execSample_keeps_inv h (of_decide_eq_true hi) hx
  | decode => exact execDecode_keeps_inv h hx
  | validate => exact execValidate_keeps_inv h hx
  | rd reg => exact execRd_keeps_inv h hx
  | rdt idx => exact execRdt_keeps_inv h hx

theorem step_keeps_inv {s t : State} (h : Inv s) (hstep : step s = .next t) : Inv t := by
  obtain ⟨-, rfl⟩ | ⟨rest, -, rfl⟩ | ⟨w, rest, -, ⟨i, hd, hx⟩ | ⟨e, -, rfl⟩⟩ :=
    step_cases s t hstep
  · exact h.endResponse
  · exact h.takeReset rest
  · exact exec_keeps_inv (h.takeCommand rest) (wf_of_decode_ok hd) hx
  · exact (h.takeCommand rest).raise_host (.inr rfl)

theorem run_succ_of_step {s u : State} (h : step s = .next u) (k : Nat) :
    Sys2Proof.core.run (k + 1) s = Sys2Proof.core.run k u := by
  have hcore : Sys2Proof.core.step s = .next u := h
  simp only [Host.Core.run, hcore]

/-- What every step keeps, every run keeps, and no run stops (00_scope.md R17, R19). -/
theorem run_keeps {P : State → Prop} (hP : ∀ s t, P s → step s = .next t → P t) (k : Nat) :
    ∀ s, P s → ∃ t, Sys2Proof.core.run k s = .next t ∧ P t := by
  induction k with
  | zero => exact fun s hs => ⟨s, rfl, hs⟩
  | succ k ih =>
    intro s hs
    obtain ⟨u, hu⟩ := step_next s
    obtain ⟨t, hrun, ht⟩ := ih u (hP s u hs hu)
    exact ⟨t, (run_succ_of_step hu k).trans hrun, ht⟩

/-- A reset block with any events to come meets the invariant (10_state.md R43, R44). -/
theorem inv_offered {c : Config} (hc : c.Legal) (events : List PortEvent) :
    Inv (State.offered c events) :=
  (inv_resetWith hc).of_same_registers rfl rfl rfl rfl rfl ⟨rfl, rfl⟩

end Sys2Proof.Machine

/-! ### The obligations of 00_scope.md -/

section
open Sys2Proof Sys2Proof.Machine

/-- Settles O52: the invariant and the parameters are kept by every step, hence by every run. -/
theorem everyRunCompletesWithInvariant : Obligations.EveryRunCompletesWithInvariant := by
  intro c events k hc
  refine run_keeps (P := fun s => Inv s ∧ s.cfg = c) (fun s t hs hstep => ?_) k _
    ⟨inv_offered hc events, rfl⟩
  obtain ⟨hinv, hcfg⟩ := hs
  obtain ⟨hkept, -⟩ := step_cfg_port hstep
  exact ⟨step_keeps_inv hinv hstep, hkept.trans hcfg⟩

/-- Settles O7: taking the word is exactly the update of `port` and `rsp` that the statement writes. -/
theorem stepRunsDecodedCommand : Obligations.StepRunsDecodedCommand :=
  fun _ _ _ _ hp hd => step_of_decode_ok hp hd

/-- Settles O11: a step exists from every state, and what it leaves of the port is known. -/
theorem everyStepCompletes : Obligations.EveryStepCompletes := by
  intro s
  obtain ⟨t, ht⟩ := step_next s
  obtain ⟨-, hport⟩ := step_cfg_port ht
  exact ⟨t, ht, hport⟩

/-- Settles O13: a step's account of the parameters, for all four kinds of step at once. -/
theorem stepKeepsConfiguration : Obligations.StepKeepsConfiguration := by
  intro s t hstep
  obtain ⟨hcfg, -⟩ := step_cfg_port hstep
  exact hcfg

end

/-! PROOFS. The state of spec/10_state.md: the reset values (R44), the layouts of the eight numbered registers
as an RD shows them (R33 to R40), and a Measurement in a reachable state (R43 item 7). -/

namespace Sys2Proof.Machine

/-! ### A field of a word, from the word's number -/

theorem extractLsb'_eq_iff_toNat {n lo len : Nat} {w : BitVec n} {x : BitVec len} :
    w.extractLsb' lo len = x ↔ w.toNat / 2 ^ lo % 2 ^ len = x.toNat := by
  rw [← BitVec.toNat_inj, extract_toNat]

theorem getLsbD_eq_iff_toNat {n i : Nat} {w : BitVec n} {b : Bool} :
    w.getLsbD i = b ↔ w.toNat / 2 ^ i % 2 = b.toNat := by
  rw [getLsbD_eq_decide]
  cases b
  · rw [decide_eq_false_iff_not, Bool.toNat_false]; omega
  · rw [decide_eq_true_iff, Bool.toNat_true]

/-- Two bytes as one 16-bit number (43_validate.md R98). -/
theorem eq_append_of_toNat {x : BitVec 16} {a b : BitVec 8}
    (h : x.toNat = a.toNat * 256 + b.toNat) : x = a ++ b :=
  BitVec.eq_of_toNat_eq (h.trans (append_toNat a b).symm)

/-! ### The numbered registers as words -/

theorem tcountWord_toNat (s : State) : (tcountWord s).toNat = s.edr.tcount.toNat :=
  BitVec.toNat_setWidth_of_le (by decide)

theorem bcountWord_toNat (s : State) : (bcountWord s).toNat = s.pwd.bcount.toNat :=
  BitVec.toNat_setWidth_of_le (by decide)

theorem faultWord_toNat (s : State) : (faultWord s).toNat = s.fault.toNat :=
  BitVec.toNat_setWidth_of_le (by decide)

/-- Each flag stands in FAULT at its own place (10_state.md R34). -/
theorem faultWord_getLsbD_bit (f : FaultFlag) (s : State) :
    (faultWord s).getLsbD f.bit = s.flag f := by
  have hbit : f.bit < 64 := by cases f <;> decide
  rw [faultWord, BitVec.getLsbD_setWidth, decide_eq_true hbit, Bool.true_and, State.flag]

/-- The fields of STATUS, and zero above them (10_state.md R33). -/
theorem statusWord_fields (s : State) :
    (statusWord s).extractLsb' 0 2 = s.phase.code ∧
    (statusWord s).getLsbD 2 = s.pwd.insufficient ∧ (statusWord s).getLsbD 3 = s.fv.valOk ∧
    (statusWord s).getLsbD 4 = s.pwd.diagOob ∧ (statusWord s).getLsbD 5 = s.edr.prevValid ∧
    (statusWord s).getLsbD 6 = s.edr.prev ∧ (statusWord s).extractLsb' 7 57 = 0 := by
  have hprev := s.edr.prev.toNat_lt
  have hvalid := s.edr.prevValid.toNat_lt
  have hoob := s.pwd.diagOob.toNat_lt
  have hok := s.fv.valOk.toNat_lt
  have hins := s.pwd.insufficient.toNat_lt
  simp only [extractLsb'_eq_iff_toNat, getLsbD_eq_iff_toNat, statusWord_toNat,
    BitVec.ofNat_eq_ofNat, BitVec.toNat_zero]
  omega

/-- The five bytes in FRAME, and zero above them (10_state.md R38). -/
theorem frameWord_fields (s : State) :
    (frameWord s).extractLsb' 32 8 = s.fv.frame.byte0 ∧
    (frameWord s).extractLsb' 24 8 = s.fv.frame.byte1 ∧
    (frameWord s).extractLsb' 16 8 = s.fv.frame.byte2 ∧
    (frameWord s).extractLsb' 8 8 = s.fv.frame.byte3 ∧
    (frameWord s).extractLsb' 0 8 = s.fv.frame.byte4 ∧ (frameWord s).extractLsb' 40 24 = 0 := by
  simp only [extractLsb'_eq_iff_toNat, frameWord_toNat, BitVec.ofNat_eq_ofNat, BitVec.toNat_zero]
  omega

/-- Where a register holds at bit `lo = 32 - m` the byte packed from window bits `m` to `m + 7`, window bit
`k` of them stands at register bit `39 - k` (10_state.md R38, 43_validate.md R96). -/
theorem getLsbD_eq_bit_of_packed {v : RegWord} {s : State} {a lo m k : Nat}
    (hv : v.extractLsb' lo 8 = packByte s (a + m)) (hlo : lo + m = 32) (hmk : m ≤ k)
    (hkm : k < m + 8) : v.getLsbD (39 - k) = s.bit (a + k) := by
  have hk : k - m < 8 := by omega
  have hplace : lo + (7 - (k - m)) = 39 - k := by omega
  calc v.getLsbD (39 - k) = (v.extractLsb' lo 8).getLsbD (7 - (k - m)) := by
        rw [BitVec.getLsbD_extractLsb', decide_eq_true (by omega), Bool.true_and, hplace]
    _ = s.bit (a + m + (k - m)) := by rw [hv, packByte_getLsbD s _ _ hk]
    _ = s.bit (a + k) := by rw [show a + m + (k - m) = a + k by omega]

/-- An RD of a register's number answers with that register (44_control_readout.md R104). -/
theorem exec_rd_of_ofNumber {reg : BitVec 5} {r : RegName} (h : RegName.ofNumber reg = some r)
    (s : State) : exec (.rd reg) s = .next (respond (readReg r s) s) := by
  simp only [exec, execRd, h]

/-! ### The reset state read -/

theorem resetWith_bitsWord (c : Config) : (State.resetWith c).bitsWord = 0 := BitVec.zero_and

theorem resetWith_bit (c : Config) (i : Nat) : (State.resetWith c).bit i = false := by
  rw [State.bit, resetWith_bitsWord, BitVec.ofNat_eq_ofNat, BitVec.getLsbD_zero]

/-- `prev_valid` and `prev` at reset are `PREV_INIT`, at bits 5 and 6 of STATUS (10_state.md R33). -/
theorem resetWith_statusWord (c : Config) : statusWord (State.resetWith c) =
    (match c.prevInit with | .none => 0 | .zero => 0x20 | .one => 0x60) := by
  simp only [statusWord, State.resetWith, Edr.cleared]
  cases c.prevInit <;> rfl

/-- Every other numbered register reads 0 after reset (10_state.md R34 to R40). -/
theorem resetWith_readReg {r : RegName} (hr : r ≠ .status) (c : Config) :
    readReg r (State.resetWith c) = 0 := by
  cases r with
  | status => exact absurd rfl hr
  | fault => rfl
  | tcount => rfl
  | bcount => rfl
  | bitsr => exact resetWith_bitsWord c
  | frame => simp [readReg, frameWord, State.resetWith, Fv.cleared]
  | meas => simp [readReg, measWord, State.resetWith, Fv.cleared]
  | win => simp [readReg, winWord, State.resetWith, Fv.cleared]

/-- An RD of one of them answers 0 after reset. -/
theorem exec_rd_resetWith {reg : BitVec 5} {r : RegName} (h : RegName.ofNumber reg = some r)
    (hr : r ≠ .status) (c : Config) :
    ∃ t, exec (.rd reg) (State.resetWith c) = .next t ∧ t.rsp = some 0 :=
  ⟨_, exec_rd_of_ofNumber h _, congrArg some (resetWith_readReg hr c)⟩

/-! ### A reachable Measurement -/

theorem Reachable.inv {s : State} (h : Reachable s) : Inv s := by
  obtain ⟨c, events, k, hc, hrun⟩ := h
  obtain ⟨t, hrun', ht⟩ := run_keeps (fun _ _ => step_keeps_inv) k _ (inv_offered hc events)
  obtain rfl : s = t := Host.Outcome.next.inj (hrun.symm.trans hrun')
  exact ht

theorem measurement_eq_some_iff {s : State} {hum temp : BitVec 16} :
    s.measurement = some (hum, temp) ↔ s.fv.valOk = true ∧ s.fv.hum = hum ∧ s.fv.temp = temp := by
  simp [State.measurement]

end Sys2Proof.Machine

/-! ### The obligations of 10_state.md -/

section
open Sys2Proof Sys2Proof.Machine

/-- Settles O51: the four kinds of step, each by its own lemma (R43). -/
theorem stepKeepsInvariant : Obligations.StepKeepsInvariant := fun _ _ h hstep =>
  step_keeps_inv h hstep

/-- Settles O37: the fields of STATUS, and what `PREV_INIT` makes of them at reset. -/
theorem statusRegisterLayout : Obligations.StatusRegisterLayout := by
  refine ⟨fun s => ⟨_, statusWord s, exec_rd_of_ofNumber (r := .status) rfl s, respond_rsp _ _, ?_⟩,
    fun c => ⟨_, exec_rd_of_ofNumber (r := .status) rfl _, congrArg some (resetWith_statusWord c)⟩⟩
  obtain ⟨hphase, hflags⟩ := statusWord_fields s
  refine ⟨?_, hflags⟩
  rw [hphase]
  cases s.phase <;> rfl

/-- Settles O40: the mask of BITSR covers the entries below `BIT_CAP`. -/
theorem bitsrRegisterLayout : Obligations.BitsrRegisterLayout := by
  refine ⟨fun s hc => ⟨_, _, exec_rd_of_ofNumber (r := .bitsr) rfl s, respond_rsp _ _,
      fun i hi => ⟨rfl, ?_⟩, fun i hi => ?_⟩,
    exec_rd_resetWith (r := .bitsr) rfl (by decide)⟩
  · rw [bit_eq_and s hc, decide_eq_true hi, Bool.true_and]
  · have hbit : s.bit i = false := by
      rw [bit_eq_and s hc, decide_eq_false (by omega), Bool.false_and]
    exact hbit

/-- Settles O41: the bytes by the number FRAME stands for, the window's bits byte by byte. -/
theorem frameRegisterLayout : Obligations.FrameRegisterLayout := by
  refine ⟨fun s => ⟨_, frameWord s, exec_rd_of_ofNumber (r := .frame) rfl s, respond_rsp _ _, ?_⟩,
    exec_rd_resetWith (r := .frame) rfl (by decide)⟩
  obtain ⟨h0, h1, h2, h3, h4, hzero⟩ := frameWord_fields s
  refine ⟨h0, h1, h2, h3, h4, hzero, fun a hframe k hk => ?_⟩
  rw [hframe] at h0 h1 h2 h3 h4
  rcases (by omega : k < 8 ∨ (8 ≤ k ∧ k < 16) ∨ (16 ≤ k ∧ k < 24) ∨ (24 ≤ k ∧ k < 32) ∨ 32 ≤ k)
    with hk0 | ⟨hk1, hk1'⟩ | ⟨hk2, hk2'⟩ | ⟨hk3, hk3'⟩ | hk4
  · exact getLsbD_eq_bit_of_packed (m := 0) h0 rfl (Nat.zero_le k) hk0
  · exact getLsbD_eq_bit_of_packed h1 rfl hk1 hk1'
  · exact getLsbD_eq_bit_of_packed h2 rfl hk2 hk2'
  · exact getLsbD_eq_bit_of_packed h3 rfl hk3 hk3'
  · exact getLsbD_eq_bit_of_packed h4 rfl hk4 hk

/-- Settles O53: item 7 of the invariant, which every reachable state meets. -/
theorem measurementComesFromIntactFrame : Obligations.MeasurementComesFromIntactFrame := by
  intro s hum temp hs hm
  obtain ⟨hok, rfl, rfl⟩ := measurement_eq_some_iff.1 hm
  obtain ⟨hphase, hflags, -, -, hsum, hhum, htemp⟩ := hs.inv.okImplies hok
  obtain ⟨htr, hbit, htime⟩ := (attemptFlags_eq_zero_iff s).1 hflags
  exact ⟨hphase, htr, hbit, htime, (Frame.passes_iff _).2 hsum,
    eq_append_of_toNat hhum,
    eq_append_of_toNat htemp⟩

/-- Settles O15: `PREV_INIT` decides `prev_valid` and `prev`; every other reset value is a constant. -/
theorem resetValues : Obligations.ResetValues := by
  intro c
  have hvalid : (Edr.cleared c).prevValid = false ↔ c.prevInit = .none := by
    unfold Edr.cleared; cases c.prevInit <;> simp
  have hprev : (Edr.cleared c).prev = true ↔ c.prevInit = .one := by
    unfold Edr.cleared; cases c.prevInit <;> simp
  have hempty : Slot.empty.word = 0 := by decide
  exact ⟨rfl, hvalid, hprev, rfl, fun _ => ⟨rfl, hempty⟩, rfl, resetWith_bit c, rfl, rfl, rfl, rfl, rfl,
    rfl, rfl, rfl, rfl, rfl, rfl, rfl, rfl⟩

/-- Settles O38: a read of FAULT responds and raises nothing. -/
theorem faultRegisterLayout : Obligations.FaultRegisterLayout := by
  refine ⟨fun s => ⟨_, faultWord s, exec_rd_of_ofNumber (r := .fault) rfl s, respond_rsp _ _, rfl,
      faultWord_getLsbD_bit .trOvf s, faultWord_getLsbD_bit .bitOvf s,
      faultWord_getLsbD_bit .timeErr s, faultWord_getLsbD_bit .seqErr s,
      faultWord_getLsbD_bit .cmdErr s, ?_⟩,
    exec_rd_resetWith (r := .fault) rfl (by decide)⟩
  simp only [extractLsb'_eq_iff_toNat, faultWord_toNat, BitVec.ofNat_eq_ofNat, BitVec.toNat_zero]
  omega

/-- Settles O39: the counters as numbers below `2 ^ 17` and `2 ^ 7`, WIN by its two fields. -/
theorem counterRegistersLayout : Obligations.CounterRegistersLayout := by
  refine ⟨fun s => ⟨_, tcountWord s, exec_rd_of_ofNumber (r := .tcount) rfl s, respond_rsp _ _, ?_⟩,
    fun s => ⟨_, bcountWord s, exec_rd_of_ofNumber (r := .bcount) rfl s, respond_rsp _ _, ?_⟩,
    fun s => ⟨_, winWord s, exec_rd_of_ofNumber (r := .win) rfl s, respond_rsp _ _, ?_⟩,
    fun c reg hreg => ?_⟩
  · simp only [extractLsb'_eq_iff_toNat, tcountWord_toNat, BitVec.ofNat_eq_ofNat, BitVec.toNat_zero]
    omega
  · simp only [extractLsb'_eq_iff_toNat, bcountWord_toNat, BitVec.ofNat_eq_ofNat, BitVec.toNat_zero]
    omega
  · simp only [extractLsb'_eq_iff_toNat, winWord_toNat, BitVec.ofNat_eq_ofNat, BitVec.toNat_zero]
    omega
  · obtain rfl | rfl | rfl := hreg
    · exact exec_rd_resetWith (r := .tcount) rfl (by decide) c
    · exact exec_rd_resetWith (r := .bcount) rfl (by decide) c
    · exact exec_rd_resetWith (r := .win) rfl (by decide) c

/-- Settles O42: the two fields of the number MEAS stands for. -/
theorem measRegisterLayout : Obligations.MeasRegisterLayout := by
  refine ⟨fun s => ⟨_, measWord s, exec_rd_of_ofNumber (r := .meas) rfl s, respond_rsp _ _, ?_⟩,
    exec_rd_resetWith (r := .meas) rfl (by decide)⟩
  simp only [extractLsb'_eq_iff_toNat, measWord_toNat, BitVec.ofNat_eq_ofNat, BitVec.toNat_zero]
  omega

/-- Settles O50: the invariant does not look at the events to come. -/
theorem resetMeetsInvariant : Obligations.ResetMeetsInvariant := fun _ events hc =>
  inv_offered hc events

end

/-! PROOFS. The reads of spec/20_memory.md: a response changes neither a numbered register nor a slot
(R52, spec/10_state.md R32). -/

namespace Sys2Proof.Machine

/-- No numbered register shows the response port or the responses of the run (10_state.md R32). -/
@[simp] theorem readReg_respond (r : RegName) (v : RegWord) (s : State) :
    readReg r (respond v s) = readReg r s := by
  cases r <;> rfl

/-- Every number below 8 names a register (10_state.md R32). -/
theorem exists_ofNumber_of_lt {reg : BitVec 5} (h : reg.toNat < 8) :
    ∃ r, RegName.ofNumber reg = some r :=
  Option.isSome_iff_exists.1 ((RegName.ofNumber_isSome_iff reg).trans (decide_eq_true h))

theorem readSlot_of_lt {idx : BitVec 16} {s : State} (h : idx.toNat < s.cfg.transCap) :
    readSlot idx s = some (s.slot idx.toNat).word := if_pos h

/-- An RDT of an index in range answers with that slot (44_control_readout.md R105). -/
theorem exec_rdt_of_lt {idx : BitVec 16} {s : State} (h : idx.toNat < s.cfg.transCap) :
    exec (.rdt idx) s = .next (respond (s.slot idx.toNat).word s) := by
  simp only [exec, execRdt, readSlot_of_lt h]

end Sys2Proof.Machine

/-! ### The obligations of 20_memory.md -/

section
open Sys2Proof Sys2Proof.Machine

/-- Settles O44: both reads answer from the state, and `respond` leaves what they answer with unchanged. -/
theorem readsAreIdempotent : Obligations.ReadsAreIdempotent := by
  refine ⟨fun s reg hreg => ?_, fun s idx hidx => ?_⟩
  · obtain ⟨r, hr⟩ := exists_ofNumber_of_lt hreg
    refine ⟨_, _, exec_rd_of_ofNumber hr s, exec_rd_of_ofNumber hr _, ?_, fun r' => ?_⟩
    · rw [respond_rsp, respond_rsp, readReg_respond]
    · rw [readReg_respond, readReg_respond]
  · have hidx' : idx.toNat < (respond (s.slot idx.toNat).word s).cfg.transCap := hidx
    refine ⟨_, _, exec_rdt_of_lt hidx, exec_rdt_of_lt hidx', ?_, fun i => ?_⟩
    · rw [respond_rsp, respond_rsp, respond_slot]
    · rw [respond_slot, respond_slot]

end

/-! PROOFS. The command words of spec/30_encoding.md: the decoder and the encoder are inverse to each other
(R63 to R68), the decoding procedure and the opcode map in terms of the word's number (R68 to R72), the
pseudo-instruction SMP (R76), and which steps respond (R62). -/

namespace Sys2Proof

/-! ### The decoder, from the opcode and the payload as numbers -/

/-- What is left of decoding a word that has the opcode of `i`: the procedure of the format of `i`
(30_encoding.md R64 to R67). The operands of `i` play no part. -/
def decodeFormatOf : Instr → CmdWord → Except Illegal Instr
  | .nop => decodeZ .nop
  | .clear => decodeZ .clear
  | .sample _ _ => decodeS
  | .decode => decodeZ .decode
  | .validate => decodeZ .validate
  | .rd _ => decodeR
  | .rdt _ => decodeT

theorem decode_of_opcode {w : CmdWord} (i : Instr) (h : w.toNat / 2 ^ 64 = (opcodeOf i).toNat) :
    decode w = decodeFormatOf i w := by
  have hop : (opField w).toNat = (opcodeOf i).toNat := (opField_toNat w).trans h
  unfold decode
  rw [hop]
  cases i <;> rfl

theorem decode_of_reserved_opcode {w : CmdWord} (h : 7 ≤ w.toNat / 2 ^ 64) :
    decode w = .error .reservedOpcode := by
  obtain ⟨n, hn⟩ := Nat.exists_eq_add_of_le' h
  rw [decode, opField_toNat, hn]
  rfl

/-- An opcode is that of some command, or reserved (30_encoding.md R69, R70). -/
theorem opcode_of_command_or_reserved (n : Nat) : (∃ i, n = (opcodeOf i).toNat) ∨ 7 ≤ n := by
  match n with
  | 0 => exact .inl ⟨.nop, rfl⟩
  | 1 => exact .inl ⟨.clear, rfl⟩
  | 2 => exact .inl ⟨.sample false ⟨0, 0⟩, rfl⟩
  | 3 => exact .inl ⟨.decode, rfl⟩
  | 4 => exact .inl ⟨.validate, rfl⟩
  | 5 => exact .inl ⟨.rd 0, rfl⟩
  | 6 => exact .inl ⟨.rdt 0, rfl⟩
  | n + 7 => exact .inr (by omega)

theorem decodeZ_eq (i : Instr) (w : CmdWord) :
    decodeZ i w = if w.toNat % 2 ^ 64 = 0 then .ok i else .error .payloadNotZero := by
  simp only [decodeZ, payloadField_eq_zero_iff]

theorem regField_eq (w : CmdWord) : regField w = BitVec.ofNat 5 (w.toNat % 2 ^ 64) := by
  apply BitVec.eq_of_toNat_eq
  rw [regField_toNat, BitVec.toNat_ofNat]
  omega

theorem idxField_eq (w : CmdWord) : idxField w = BitVec.ofNat 16 (w.toNat % 2 ^ 64) := by
  apply BitVec.eq_of_toNat_eq
  rw [idxField_toNat, BitVec.toNat_ofNat]
  omega

theorem decodeR_eq (w : CmdWord) :
    decodeR w = if w.toNat % 2 ^ 64 < 2 ^ 5 then .ok (.rd (BitVec.ofNat 5 (w.toNat % 2 ^ 64)))
      else .error .rdReservedBits := by
  simp only [decodeR, rdReserved_eq_zero_iff, regField_eq]

theorem decodeT_eq (w : CmdWord) :
    decodeT w = if w.toNat % 2 ^ 64 < 2 ^ 16 then .ok (.rdt (BitVec.ofNat 16 (w.toNat % 2 ^ 64)))
      else .error .rdtReservedBits := by
  simp only [decodeT, rdtReserved_eq_zero_iff, idxField_eq]

theorem Timestamp.eq_of_toNat {a b : Timestamp} (hsec : a.sec.toNat = b.sec.toNat)
    (hnsec : a.nsec.toNat = b.nsec.toNat) : a = b := by
  cases a
  cases b
  exact congrArg₂ Timestamp.mk (BitVec.eq_of_toNat_eq hsec) (BitVec.eq_of_toNat_eq hnsec)

theorem timeField_eq (w : CmdWord) : timeField w =
    ⟨BitVec.ofNat 32 (w.toNat % 2 ^ 64 % 2 ^ 62 / 2 ^ 30), BitVec.ofNat 30 (w.toNat % 2 ^ 64 % 2 ^ 30)⟩ := by
  apply Timestamp.eq_of_toNat
  · rw [timeField_sec_toNat, BitVec.toNat_ofNat]
    omega
  · rw [timeField_nsec_toNat, BitVec.toNat_ofNat]
    omega

/-- Bit 63 of a SAMPLE is 0, so bit 62 alone decides which half of the payloads a word is in. -/
theorem levelField_eq_of_lt {w : CmdWord} (h : w.toNat % 2 ^ 64 < 2 ^ 63) :
    levelField w = decide (2 ^ 62 ≤ w.toNat % 2 ^ 64) := by
  rw [levelField_eq, show w.toNat % 2 ^ 63 = w.toNat % 2 ^ 64 by omega]

theorem levelField_toNat {w : CmdWord} (h : w.toNat % 2 ^ 64 < 2 ^ 63) :
    (levelField w).toNat = w.toNat % 2 ^ 64 / 2 ^ 62 := by
  rw [levelField_eq_of_lt h]
  by_cases hl : 2 ^ 62 ≤ w.toNat % 2 ^ 64
  · rw [decide_eq_true hl, Bool.toNat_true]
    omega
  · rw [decide_eq_false hl, Bool.toNat_false]
    omega

theorem decodeS_eq (w : CmdWord) : decodeS w =
    if 2 ^ 63 ≤ w.toNat % 2 ^ 64 then .error .sampleReservedBit
    else if w.toNat % 2 ^ 64 % 2 ^ 30 < 1000000000 then .ok (.sample (levelField w) (timeField w))
    else .error .nsecOutOfRange := by
  have hnsec : w.toNat % 2 ^ 64 % 2 ^ 30 = (timeField w).nsec.toNat := by
    rw [timeField_nsec_toNat]
    omega
  simp only [decodeS, sampleReservedBit_iff, decide_eq_true_eq, hnsec]

/-- A SAMPLE's procedure on the payload alone (30_encoding.md R65, R71, R72). -/
theorem decodeS_eq_of_payload (w : CmdWord) : decodeS w =
    if 2 ^ 63 ≤ w.toNat % 2 ^ 64 then .error .sampleReservedBit
    else if w.toNat % 2 ^ 64 % 2 ^ 30 < 1000000000 then
      .ok (.sample (decide (2 ^ 62 ≤ w.toNat % 2 ^ 64))
        ⟨BitVec.ofNat 32 (w.toNat % 2 ^ 64 % 2 ^ 62 / 2 ^ 30), BitVec.ofNat 30 (w.toNat % 2 ^ 64 % 2 ^ 30)⟩)
    else .error .nsecOutOfRange := by
  rw [decodeS_eq]
  split
  · rfl
  next hbit => rw [levelField_eq_of_lt (Nat.not_le.1 hbit), timeField_eq]

/-! ### The fields of a command's word (30_encoding.md R63 to R67) -/

theorem encode_opcode (i : Instr) : (encode i).toNat / 2 ^ 64 = (opcodeOf i).toNat := by
  rw [← opField_toNat, opField_encode]

theorem encode_payload (i : Instr) : (encode i).toNat % 2 ^ 64 = (payloadOf i).toNat := by
  have := (payloadOf i).isLt
  rw [encode_toNat]
  omega

/-- A word is put together from its opcode and its payload (30_encoding.md R63). -/
theorem encode_eq_of_opcode_payload {i : Instr} {w : CmdWord}
    (hop : w.toNat / 2 ^ 64 = (opcodeOf i).toNat)
    (hp : (payloadOf i).toNat = w.toNat % 2 ^ 64) : encode i = w := by
  apply BitVec.eq_of_toNat_eq
  rw [encode_toNat, ← hop, hp]
  omega

theorem encode_sample_payload (l : Level) (t : Timestamp) : (encode (.sample l t)).toNat % 2 ^ 64 =
    l.toNat * 2 ^ 62 + t.sec.toNat * 2 ^ 30 + t.nsec.toNat :=
  (encode_payload _).trans (payload_sample_toNat l t)

/-- Bit 63 of a SAMPLE's word is 0 (30_encoding.md R65). -/
theorem encode_sample_payload_lt (l : Level) (t : Timestamp) :
    (encode (.sample l t)).toNat % 2 ^ 64 < 2 ^ 63 := by
  rw [encode_sample_payload]
  have := l.toNat_lt
  have := t.sec.isLt
  have := t.nsec.isLt
  omega

theorem levelField_encode (l : Level) (t : Timestamp) : levelField (encode (.sample l t)) = l := by
  apply BitVec.ofBool_eq_iff_eq.1
  apply BitVec.eq_of_toNat_eq
  rw [ofBool_toNat, ofBool_toNat, levelField_toNat (encode_sample_payload_lt l t), encode_sample_payload]
  have := t.sec.isLt
  have := t.nsec.isLt
  omega

theorem timeField_encode (l : Level) (t : Timestamp) : timeField (encode (.sample l t)) = t := by
  have hp := encode_sample_payload l t
  have hsec := t.sec.isLt
  have hnsec := t.nsec.isLt
  apply Timestamp.eq_of_toNat
  · rw [timeField_sec_toNat]
    omega
  · rw [timeField_nsec_toNat]
    omega

/-! ### The word of a well-formed command decodes to it -/

theorem decodeZ_encode {i : Instr} (hi : payloadOf i = 0) : decodeZ i (encode i) = .ok i := by
  rw [decodeZ_eq, encode_payload, hi]
  rfl

theorem decodeS_encode (l : Level) {t : Timestamp} (ht : t.WellFormed) :
    decodeS (encode (.sample l t)) = .ok (.sample l t) := by
  have hbit := encode_sample_payload_lt l t
  have hnsec : (encode (.sample l t)).toNat % 2 ^ 64 % 2 ^ 30 = t.nsec.toNat := by
    rw [encode_sample_payload]
    have := t.nsec.isLt
    omega
  rw [decodeS_eq, levelField_encode, timeField_encode, if_neg (Nat.not_le.2 hbit), hnsec]
  exact if_pos ht

theorem decodeR_encode (reg : BitVec 5) : decodeR (encode (.rd reg)) = .ok (.rd reg) := by
  rw [decodeR_eq, encode_payload, payload_rd_toNat, if_pos reg.isLt, BitVec.ofNat_toNat,
    BitVec.setWidth_eq]

theorem decodeT_encode (idx : BitVec 16) : decodeT (encode (.rdt idx)) = .ok (.rdt idx) := by
  rw [decodeT_eq, encode_payload, payload_rdt_toNat, if_pos idx.isLt, BitVec.ofNat_toNat,
    BitVec.setWidth_eq]

theorem decode_encode {i : Instr} (hi : i.wf = true) : decode (encode i) = .ok i := by
  rw [decode_of_opcode i (encode_opcode i)]
  cases i with
  | nop => exact decodeZ_encode rfl
  | clear => exact decodeZ_encode rfl
  | sample l t => exact decodeS_encode l (of_decide_eq_true hi)
  | decode => exact decodeZ_encode rfl
  | validate => exact decodeZ_encode rfl
  | rd reg => exact decodeR_encode reg
  | rdt idx => exact decodeT_encode idx

/-! ### A word that decodes has the opcode and the payload of its command -/

theorem fields_of_decodeZ_ok {i j : Instr} {w : CmdWord} (hi : payloadOf i = 0)
    (h : decodeZ i w = .ok j) :
    opcodeOf j = opcodeOf i ∧ (payloadOf j).toNat = w.toNat % 2 ^ 64 := by
  rw [decodeZ_eq] at h
  split at h <;> cases h
  next hp => exact ⟨rfl, by rw [hi, hp]; rfl⟩

theorem fields_of_decodeS_ok {j : Instr} {w : CmdWord} (h : decodeS w = .ok j) :
    opcodeOf j = 2 ∧ (payloadOf j).toNat = w.toNat % 2 ^ 64 := by
  rw [decodeS_eq] at h
  split at h
  · cases h
  next hbit =>
    split at h <;> cases h
    refine ⟨rfl, ?_⟩
    rw [payload_sample_toNat, levelField_toNat (Nat.not_le.1 hbit), timeField_sec_toNat,
      timeField_nsec_toNat]
    omega

theorem fields_of_decodeR_ok {j : Instr} {w : CmdWord} (h : decodeR w = .ok j) :
    opcodeOf j = 5 ∧ (payloadOf j).toNat = w.toNat % 2 ^ 64 := by
  rw [decodeR_eq] at h
  split at h <;> cases h
  next hp => exact ⟨rfl, by rw [payload_rd_toNat, BitVec.toNat_ofNat, Nat.mod_eq_of_lt hp]⟩

theorem fields_of_decodeT_ok {j : Instr} {w : CmdWord} (h : decodeT w = .ok j) :
    opcodeOf j = 6 ∧ (payloadOf j).toNat = w.toNat % 2 ^ 64 := by
  rw [decodeT_eq] at h
  split at h <;> cases h
  next hp => exact ⟨rfl, by rw [payload_rdt_toNat, BitVec.toNat_ofNat, Nat.mod_eq_of_lt hp]⟩

theorem fields_of_decodeFormatOf_ok {i j : Instr} {w : CmdWord} (h : decodeFormatOf i w = .ok j) :
    opcodeOf j = opcodeOf i ∧ (payloadOf j).toNat = w.toNat % 2 ^ 64 := by
  cases i with
  | nop => exact fields_of_decodeZ_ok rfl h
  | clear => exact fields_of_decodeZ_ok rfl h
  | sample l t => exact fields_of_decodeS_ok h
  | decode => exact fields_of_decodeZ_ok rfl h
  | validate => exact fields_of_decodeZ_ok rfl h
  | rd reg => exact fields_of_decodeR_ok h
  | rdt idx => exact fields_of_decodeT_ok h

/-- No bit of a word that decodes is ignored (30_encoding.md R63 to R68). -/
theorem encode_of_decode_ok {i : Instr} {w : CmdWord} (h : decode w = .ok i) : encode i = w := by
  obtain ⟨i₀, hop⟩ | hop := opcode_of_command_or_reserved (w.toNat / 2 ^ 64)
  · rw [decode_of_opcode i₀ hop] at h
    obtain ⟨hop', hp⟩ := fields_of_decodeFormatOf_ok h
    exact encode_eq_of_opcode_payload (by rw [hop, hop']) hp
  · rw [decode_of_reserved_opcode hop] at h
    cases h

/-! ### The rows of the opcode map (30_encoding.md R69) -/

/-- How many low bits of the payload hold operands, which the mask of the format's rows leaves out
(30_encoding.md R64 to R67, R69). -/
def Format.operandBits : Format → Nat
  | .z => 0
  | .s => 63
  | .r => 5
  | .t => 16

theorem tableRow_mem_opcodeMap (i : Instr) : tableRow i ∈ opcodeMap := by
  cases i <;> simp [opcodeMap, tableRow]

theorem tableRow_mask (i : Instr) :
    (tableRow i).mask = BitVec.allOnes 68 <<< (tableRow i).format.operandBits := by
  have hrows : ∀ r ∈ opcodeMap, r.mask = BitVec.allOnes 68 <<< r.format.operandBits := by decide
  exact hrows _ (tableRow_mem_opcodeMap i)

theorem tableRow_pattern_toNat (i : Instr) :
    (tableRow i).pattern.toNat = (opcodeOf i).toNat * 2 ^ 64 := by
  cases i <;> simp [tableRow, opcodeOf]

/-- The candidates for a row are the words with its opcode and no payload bit above its operands. -/
theorem candidate_iff (i : Instr) (w : CmdWord) :
    w &&& (tableRow i).mask = (tableRow i).pattern ↔ w.toNat / 2 ^ 64 = (opcodeOf i).toNat ∧
      w.toNat % 2 ^ 64 < 2 ^ (tableRow i).format.operandBits := by
  rw [tableRow_mask]
  have hpat := tableRow_pattern_toNat i
  generalize (opcodeOf i).toNat = op at hpat ⊢
  -- a format has 0, 63, 5 or 16 operand bits, and with the number known the rest is arithmetic
  have hk : ∃ k, (tableRow i).format.operandBits = k ∧ (k = 0 ∨ k = 63 ∨ k = 5 ∨ k = 16) := by
    cases (tableRow i).format <;> exact ⟨_, rfl, by decide⟩
  obtain ⟨k, hk, rfl | rfl | rfl | rfl⟩ := hk <;>
    rw [hk, and_highMask_eq_iff _ _ _ (by rw [hpat]; omega), hpat] <;> omega

theorem exists_tableRow_of_mem_opcodeMap {r : TableRow} (h : r ∈ opcodeMap) :
    ∃ i, tableRow i = r := by
  have hmap : opcodeMap = List.map tableRow [.nop, .clear, .sample false ⟨0, 0⟩, .decode, .validate,
    .rd 0, .rdt 0] := rfl
  rw [hmap, List.mem_map] at h
  obtain ⟨i, -, hi⟩ := h
  exact ⟨i, hi⟩

theorem tableRow_candidate_encode (i : Instr) :
    encode i &&& (tableRow i).mask = (tableRow i).pattern := by
  refine beq_iff_eq.1 ?_
  cases i with
  | nop => exact Laws.RowMatch.nop
  | clear => exact Laws.RowMatch.clear
  | sample l t => exact Laws.RowMatch.sample l t
  | decode => exact Laws.RowMatch.decode
  | validate => exact Laws.RowMatch.validate
  | rd reg => exact Laws.RowMatch.rd reg
  | rdt idx => exact Laws.RowMatch.rdt idx

/-- With no payload bit above the operands, only the `nsec` of a SAMPLE is left to fail (R72). -/
theorem decodeFormatOf_of_payload_lt {i : Instr} {w : CmdWord}
    (hi : (tableRow i).mnemonic ≠ "SAMPLE")
    (hp : w.toNat % 2 ^ 64 < 2 ^ (tableRow i).format.operandBits) :
    ∃ j, decodeFormatOf i w = .ok j ∧ tableRow j = tableRow i := by
  cases i with
  | sample l t => exact absurd rfl hi
  | rd reg => exact ⟨_, (decodeR_eq w).trans (if_pos hp), rfl⟩
  | rdt idx => exact ⟨_, (decodeT_eq w).trans (if_pos hp), rfl⟩
  | _ => exact ⟨_, (decodeZ_eq _ w).trans (if_pos (Nat.lt_one_iff.1 hp)), rfl⟩

theorem decodeS_of_payload_lt {w : CmdWord} (hp : w.toNat % 2 ^ 64 < 2 ^ 63) : decodeS w =
    if 1000000000 ≤ w.toNat % 2 ^ 30 then .error .nsecOutOfRange
    else .ok (.sample (levelField w) (timeField w)) := by
  rw [decodeS_eq, if_neg (Nat.not_le.2 hp), show w.toNat % 2 ^ 64 % 2 ^ 30 = w.toNat % 2 ^ 30 by omega]
  simp only [← Nat.not_le, ite_not]

theorem decode_of_candidate {i : Instr} {w : CmdWord}
    (hc : w &&& (tableRow i).mask = (tableRow i).pattern) :
    if (tableRow i).mnemonic = "SAMPLE" ∧ 1000000000 ≤ w.toNat % 2 ^ 30 then
      decode w = .error .nsecOutOfRange
    else ∃ j, decode w = .ok j ∧ tableRow j = tableRow i := by
  obtain ⟨hop, hp⟩ := (candidate_iff i w).1 hc
  rw [decode_of_opcode i hop]
  cases i with
  | sample l t =>
    have hs : decodeFormatOf (.sample l t) w = _ := decodeS_of_payload_lt hp
    split
    next h => exact hs.trans (if_pos h.2)
    next h => exact ⟨_, hs.trans (if_neg fun hle => h ⟨rfl, hle⟩), rfl⟩
  | _ =>
    rw [if_neg fun h => absurd h.1 (by simp [tableRow])]
    exact decodeFormatOf_of_payload_lt (by simp [tableRow]) hp

end Sys2Proof

namespace Sys2Proof.Machine

/-! ### SMP (30_encoding.md R76) -/

/-- The timestamp SMP gives the time `t`; `smpInstr` is SAMPLE with it. -/
def stampOf (t : Nat) : Timestamp := ⟨BitVec.ofNat 32 (t / nsPerSec), BitVec.ofNat 30 (t % nsPerSec)⟩

theorem smpInstr_eq (l : Level) (t : Nat) : smpInstr l t = .sample l (stampOf t) := rfl

theorem stampOf_sec_toNat {t : Nat} (h : t < 2 ^ 32 * 1000000000) :
    (stampOf t).sec.toNat = t / 1000000000 :=
  Nat.mod_eq_of_lt ((Nat.div_lt_iff_lt_mul (by decide)).2 h)

theorem stampOf_nsec_toNat (t : Nat) : (stampOf t).nsec.toNat = t % 1000000000 :=
  Nat.mod_eq_of_lt ((Nat.mod_lt t (by decide)).trans (by decide))

theorem timeNs_stampOf {t : Nat} (h : t < 2 ^ 32 * 1000000000) : timeNs (stampOf t) = t := by
  rw [timeNs, stampOf_sec_toNat h, stampOf_nsec_toNat]
  exact Nat.div_add_mod' t 1000000000

theorem stampOf_wellFormed (t : Nat) : (stampOf t).WellFormed :=
  (stampOf_nsec_toNat t).trans_lt (Nat.mod_lt t (by decide))

/-! ### Which steps respond (30_encoding.md R62) -/

/-- RD and RDT, the two commands that read. -/
def IsRead (i : Instr) : Prop := (∃ reg, i = .rd reg) ∨ (∃ idx, i = .rdt idx)

theorem exec_read_responds {i : Instr} {s t : State} (hi : IsRead i) (hx : exec i s = .next t) :
    ∃ v, t.rsp = some v ∧ t.responses = s.responses ++ [v] := by
  obtain ⟨reg, rfl⟩ | ⟨idx, rfl⟩ := hi
  · simp only [exec, execRd] at hx
    split at hx <;> cases hx <;> exact ⟨_, rfl, rfl⟩
  · simp only [exec, execRdt] at hx
    split at hx <;> cases hx <;> exact ⟨_, rfl, rfl⟩

theorem captureEdge_silent (l : Level) (tm : Timestamp) (s : State) :
    (captureEdge l tm s).rsp = s.rsp ∧ (captureEdge l tm s).responses = s.responses := by
  unfold captureEdge
  split <;> exact ⟨rfl, rfl⟩

theorem exec_silent {i : Instr} {s t : State} (hi : ¬ IsRead i) (hx : exec i s = .next t) :
    t.rsp = s.rsp ∧ t.responses = s.responses := by
  cases i with
  | nop => cases hx; exact ⟨rfl, rfl⟩
  | clear => cases hx; exact ⟨rfl, rfl⟩
  | sample l tm =>
    simp only [exec, execSample] at hx
    split at hx <;> cases hx
    · split
      · exact captureEdge_silent l tm s
      · exact ⟨rfl, rfl⟩
    · exact ⟨rfl, rfl⟩
  | decode =>
    simp only [exec, execDecode] at hx
    split at hx <;> cases hx
    · rw [decodeLoop_frame]
      exact ⟨rfl, rfl⟩
    · exact ⟨rfl, rfl⟩
  | validate =>
    simp only [exec, execValidate] at hx
    split at hx <;> cases hx <;> exact ⟨rfl, rfl⟩
  | rd reg => exact absurd (.inl ⟨reg, rfl⟩) hi
  | rdt idx => exact absurd (.inr ⟨idx, rfl⟩) hi

/-- The next step takes a word that decodes to a read. -/
def TakesRead (s : State) : Prop := ∃ (w : CmdWord) (rest : List PortEvent),
  s.port = .command w :: rest ∧
    ((∃ reg, decode w = .ok (.rd reg)) ∨ (∃ idx, decode w = .ok (.rdt idx)))

theorem takesRead_iff {s : State} {w : CmdWord} {rest : List PortEvent} {i : Instr}
    (hp : s.port = .command w :: rest) (hd : decode w = .ok i) : TakesRead s ↔ IsRead i := by
  simp [TakesRead, IsRead, hp, hd]

theorem step_read_responds {s t : State} (hr : TakesRead s) (h : step s = .next t) :
    ∃ v, t.rsp = some v ∧ t.responses = s.responses ++ [v] := by
  have ⟨w, rest, hp, hd⟩ := hr
  obtain ⟨i, hd⟩ : ∃ i, decode w = .ok i := hd.elim (fun ⟨_, h⟩ => ⟨_, h⟩) fun ⟨_, h⟩ => ⟨_, h⟩
  rw [step_of_decode_ok hp hd] at h
  exact exec_read_responds (s := takeCommand rest s) ((takesRead_iff hp hd).1 hr) h

theorem step_silent {s t : State} (hr : ¬ TakesRead s) (h : step s = .next t) :
    t.rsp = none ∧ t.responses = s.responses := by
  obtain ⟨-, rfl⟩ | ⟨rest, -, rfl⟩ | ⟨w, rest, hp, ⟨i, hd, hx⟩ | ⟨e, -, rfl⟩⟩ := step_cases s t h
  · exact ⟨rfl, rfl⟩
  · exact ⟨rfl, rfl⟩
  · exact exec_silent (mt (takesRead_iff hp hd).2 hr) hx
  · exact ⟨rfl, rfl⟩

end Sys2Proof.Machine

/-! ### The obligations of 30_encoding.md -/

section
open Sys2Proof Sys2Proof.Machine

/-- Settles O2: the opcode of the word selects the format of the command, whose fields are read back. -/
theorem decodeInvertsEncode : Obligations.DecodeInvertsEncode := fun _ => decode_encode

/-- Settles O3: the opcode and the payload of the word are those of the command. -/
theorem decodedWordIsItsEncoding : Obligations.DecodedWordIsItsEncoding := fun _ _ h =>
  ⟨wf_of_decode_ok h, encode_of_decode_ok h⟩

/-- Settles O4: the opcode selects a format, and each format's procedure is known on the word's number. -/
theorem decodeFollowsProcedure : Obligations.DecodeFollowsProcedure := by
  intro w op p
  refine ⟨fun h => ?_, fun h => ?_, fun h => ?_, fun h => ?_, fun h => ?_, fun h => ?_, fun h => ?_,
    decode_of_reserved_opcode⟩
  · exact (decode_of_opcode .nop h).trans (decodeZ_eq .nop w)
  · exact (decode_of_opcode .clear h).trans (decodeZ_eq .clear w)
  · exact (decode_of_opcode (.sample false ⟨0, 0⟩) h).trans (decodeS_eq_of_payload w)
  · exact (decode_of_opcode .decode h).trans (decodeZ_eq .decode w)
  · exact (decode_of_opcode .validate h).trans (decodeZ_eq .validate w)
  · exact (decode_of_opcode (.rd 0) h).trans (decodeR_eq w)
  · exact (decode_of_opcode (.rdt 0) h).trans (decodeT_eq w)

/-- Settles O5: a word that decodes is its command's word, which matches its row; a candidate has the row's
opcode and only operand bits below it. -/
theorem opcodeMapRowsAreExact : Obligations.OpcodeMapRowsAreExact := by
  refine ⟨fun w i h => ⟨tableRow_mem_opcodeMap i, ?_⟩, fun w r hr hc => ?_⟩
  · rw [← encode_of_decode_ok h]
    exact tableRow_candidate_encode i
  · obtain ⟨i, rfl⟩ := exists_tableRow_of_mem_opcodeMap hr
    exact decode_of_candidate hc

/-- Settles O12: the reads respond once, and every other kind of step is silent. -/
theorem onlyReadsRespond : Obligations.OnlyReadsRespond := fun _ _ h =>
  ⟨fun hr => step_read_responds hr h, fun hr => step_silent hr h⟩

/-- Settles O1: the decoder computes on each of the words written out. -/
theorem specWordsDecode : Obligations.SpecWordsDecode :=
  ⟨rfl, rfl, rfl, rfl, rfl, rfl, rfl, rfl, rfl, rfl, rfl, rfl, rfl, rfl⟩

/-- Settles O6: the quotient fits 32 bits, the remainder 30, and both give the time back. -/
theorem smpIsSampleAtTime : Obligations.SmpIsSampleAtTime :=
  ⟨fun level t ht => ⟨stampOf t, smpInstr_eq level t, stampOf_sec_toNat ht, stampOf_nsec_toNat t,
    timeNs_stampOf ht, stampOf_wellFormed t⟩, rfl⟩

end

namespace Sys2Proof.Machine

/-! ### Durations as numbers of nanoseconds (40_duration.md R79 to R81) -/

/-- Only the zero duration has the value 0. -/
theorem eq_zero_of_durNs_eq_zero {d : Duration} (h : durNs d = 0) : d = ⟨0, 0⟩ := by
  obtain ⟨hsec, hnsec⟩ := Nat.add_eq_zero_iff.1 h
  have hsec : d.dsec.toNat = 0 := (Nat.mul_eq_zero.1 hsec).resolve_right (by decide)
  cases d
  exact congrArg₂ Duration.mk (BitVec.eq_of_toNat_eq hsec) (BitVec.eq_of_toNat_eq hnsec)

theorem diff_eq_none_iff_timeNs_lt {a b : Timestamp} (ha : a.WellFormed) (hb : b.WellFormed) :
    diff a b = none ↔ timeNs b < timeNs a :=
  (diff_eq_none_iff a b).trans (earlier_iff a b ha hb)

/-- Equal times are no error, and a duration between them has the value 0. -/
theorem diff_of_timeNs_eq {a b : Timestamp} (ha : a.WellFormed) (hb : b.WellFormed)
    (h : timeNs a = timeNs b) : diff a b = some ⟨0, 0⟩ := by
  have hne : diff a b ≠ none := fun hnone =>
    h.not_gt ((diff_eq_none_iff_timeNs_lt ha hb).1 hnone)
  obtain ⟨d, hd⟩ := Option.ne_none_iff_exists'.1 hne
  obtain ⟨-, hsum⟩ := diff_eq_some a b d ha hb hd
  have hzero : durNs d = 0 := by omega
  rw [hd, eq_zero_of_durNs_eq_zero hzero]

theorem durBelow_iff_fields (d : Duration) (k : Nat) :
    durBelow d k = true ↔ d.dsec = 0 ∧ d.dnsec.toNat < k := by
  simp only [durBelow, Bool.and_eq_true, beq_iff_eq, decide_eq_true_eq]

theorem durAbove_iff_fields (d : Duration) (k : Nat) :
    durAbove d k = true ↔ 0 < d.dsec.toNat ∨ k < d.dnsec.toNat := by
  have hpos : d.dsec ≠ 0 ↔ 0 < d.dsec.toNat := by
    rw [Nat.pos_iff_ne_zero, ne_eq, ← BitVec.toNat_inj]
    rfl
  simp only [durAbove, Bool.or_eq_true, bne_iff_ne, hpos, decide_eq_true_eq]

theorem classify_eq_false_iff (c : Config) (d : Duration) :
    classify c d = false ↔ durBelow d c.threshNs = true := by
  rw [classify, Bool.not_eq_false']

end Sys2Proof.Machine

/-! ### The obligations of 40_duration.md -/

section
open Sys2Proof Sys2Proof.Machine

/-- Settles O23: what `DIFF` gives, added to the first time, is the second; between a time and itself that
is 0. -/
theorem diffIsExactDifference : Obligations.DiffIsExactDifference := by
  refine ⟨fun a b d ha hb h => ?_, fun a ha => diff_of_timeNs_eq ha ha rfl⟩
  obtain ⟨hnsec, hsum⟩ := diff_eq_some a b d ha hb h
  exact ⟨hnsec, Nat.le.intro hsum, Nat.eq_sub_of_add_eq' hsum, hsum⟩

/-- Settles O24: the first test of `DIFF` compares the numbers of nanoseconds. -/
theorem diffErrExactlyWhenEarlier : Obligations.DiffErrExactlyWhenEarlier := fun _ _ ha hb =>
  ⟨diff_eq_none_iff_timeNs_lt ha hb, diff_of_timeNs_eq ha hb⟩

/-- Settles O25: the two tests on the fields are the model's tests, which compare numbers; `CLASSIFY` is the
first of them at the threshold. -/
theorem durationComparisonIsNumeric : Obligations.DurationComparisonIsNumeric := by
  intro d k hd _ hk
  have hbelow : durBelow d k = true ↔ durNs d < k := durBelow_iff d k hd hk
  have habove : durAbove d k = true ↔ k < durNs d := durAbove_iff d k hd hk
  refine ⟨(durBelow_iff_fields d k).symm.trans hbelow, hbelow,
    (durAbove_iff_fields d k).symm.trans habove, habove, ?_⟩
  rintro c rfl
  exact (classify_eq_false_iff c d).trans hbelow

end

/-! PROOFS. SAMPLE, branch by branch: outside CAPTURE, at the previous level, and an edge with the buffer full
or with room; the first sample after CLEAR, and the second of two at one level (spec/41_capture.md R83 to
R86). -/

namespace Sys2Proof.Machine

/-! ### What SAMPLE does (R83) -/

theorem exec_sample_of_not_capture {s : State} (hp : s.phase ≠ .capture) (l : Level) (tm : Timestamp) :
    exec (.sample l tm) s = .next (raise .seqErr s) := by
  simp only [exec, execSample, if_neg hp]

theorem exec_sample_of_capture {s : State} (hp : s.phase = .capture) (l : Level) (tm : Timestamp) :
    exec (.sample l tm) s = .next (setPrev l (if isEdge l s then captureEdge l tm s else s)) := by
  simp only [exec, execSample, if_pos hp]

theorem exec_sample_of_not_isEdge {s : State} {l : Level} (hp : s.phase = .capture)
    (hlevel : ¬ isEdge l s = true) (tm : Timestamp) : exec (.sample l tm) s = .next s := by
  rw [exec_sample_of_capture hp, if_neg hlevel, setPrev_of_not_isEdge hlevel]

theorem exec_sample_of_full {s : State} {l : Level} (hp : s.phase = .capture)
    (hedge : isEdge l s = true) (hfull : s.cfg.transCap ≤ s.edr.tcount.toNat) (tm : Timestamp) :
    exec (.sample l tm) s = .next (setPrev l (raise .trOvf s)) := by
  rw [exec_sample_of_capture hp, if_pos hedge, captureEdge, if_neg (Nat.not_lt.2 hfull)]

theorem exec_sample_of_room {s : State} {l : Level} (hp : s.phase = .capture)
    (hedge : isEdge l s = true) (hroom : s.edr.tcount.toNat < s.cfg.transCap) (tm : Timestamp) :
    exec (.sample l tm) s = .next (setPrev l (recordTransition l tm s)) := by
  rw [exec_sample_of_capture hp, if_pos hedge, captureEdge, if_pos hroom]

/-! ### What a sample leaves for the next one (R86) -/

@[simp] theorem captureEdge_phase (l : Level) (tm : Timestamp) (s : State) :
    (captureEdge l tm s).phase = s.phase := by
  unfold captureEdge
  split <;> rfl

theorem not_isEdge_iff (l : Level) (s : State) :
    ¬ isEdge l s = true ↔ s.edr.prevValid = true ∧ l = s.edr.prev := by
  simp [isEdge_eq_true_iff]

/-- Once `prev` is the level, a sample at that level is no edge. -/
theorem not_isEdge_setPrev (l : Level) (s : State) : ¬ isEdge l (setPrev l s) = true :=
  (not_isEdge_iff l _).2 ⟨rfl, rfl⟩

/-! ### The state CLEAR leaves for the first sample (R84) -/

/-- What SAMPLE looks at after CLEAR (44_control_readout.md R103). -/
theorem exec_clear_opens_capture (s : State) :
    ∃ c, exec .clear s = .next c ∧ c.cfg = s.cfg ∧ c.phase = .capture ∧ c.edr = Edr.cleared s.cfg :=
  ⟨_, rfl, rfl, rfl, rfl⟩

/-- `PREV_INIT` decides whether the first sample is an edge. -/
theorem isEdge_cleared_iff {s : State} {c : Config} (he : s.edr = Edr.cleared c) (l : Level) :
    isEdge l s = true ↔
      c.prevInit = .none ∨ (c.prevInit = .zero ∧ l = true) ∨ (c.prevInit = .one ∧ l = false) := by
  rw [isEdge_eq_true_iff, he]
  cases h : c.prevInit <;> simp [Edr.cleared, h]

end Sys2Proof.Machine

/-! ### The obligations of 41_capture.md -/

section
open Sys2Proof Sys2Proof.Machine

/-- Settles O20: one lemma per branch of SAMPLE; the recorded slot and the slots beside it are those of
`recordTransition`. -/
theorem sampleRecordsEdges : Obligations.SampleRecordsEdges := by
  intro s l tm hlegal edge sampled
  have hiff : isEdge l s = true ↔ edge := isEdge_eq_true_iff l s
  refine ⟨fun hp => exec_sample_of_not_capture hp l tm,
    fun hp hlevel => exec_sample_of_not_isEdge hp (mt hiff.1 hlevel) tm,
    fun hp hedge hfull => exec_sample_of_full hp (hiff.2 hedge) hfull tm,
    fun hp hedge hroom => ⟨_, exec_sample_of_room hp (hiff.2 hedge) hroom tm, rfl,
      recordTransition_tcount_toNat l tm hlegal hroom, ?_, fun i hi => ?_⟩⟩
  · rw [setPrev_slot, recordTransition_slot, if_pos rfl]
  · rw [setPrev_slot, recordTransition_slot, if_neg hi]

/-- Settles O21: after CLEAR the buffer is empty and has room, so the first sample is recorded exactly when
`PREV_INIT` makes it an edge. -/
theorem firstSampleByPrevInit : Obligations.FirstSampleByPrevInit := by
  intro s l tm hlegal
  obtain ⟨c, hclear, hcfg, hp, hedr⟩ := exec_clear_opens_capture s
  have hcount : c.edr.tcount.toNat = 0 := by rw [hedr]; rfl
  have hempty : c.slot 0 = Slot.empty := by rw [State.slot, hedr]; rfl
  simp only [← isEdge_cleared_iff hedr l]
  by_cases hedge : isEdge l c = true
  · rw [← hcfg] at hlegal
    have hroom : c.edr.tcount.toNat < c.cfg.transCap := by
      obtain ⟨-, -, -, hcap, -⟩ := hlegal
      omega
    refine ⟨c, _, hclear, exec_sample_of_room hp hedge hroom tm, rfl, rfl, ?_⟩
    rw [if_pos hedge, setPrev_slot, recordTransition_slot, if_pos hcount.symm]
    exact ⟨rfl, (recordTransition_tcount_toNat l tm hlegal hroom).trans (by rw [hcount])⟩
  · obtain ⟨hvalid, hprev⟩ := (not_isEdge_iff l c).1 hedge
    refine ⟨c, c, hclear, exec_sample_of_not_isEdge hp hedge tm, hvalid, hprev.symm, ?_⟩
    rw [if_neg hedge]
    exact ⟨rfl, hempty, hcount⟩

/-- Settles O22: the first sample leaves `prev` at the level, so the second is no edge. -/
theorem repeatedLevelRecordsNothing : Obligations.RepeatedLevelRecordsNothing := by
  intro s l tm tm' hp
  refine ⟨_, exec_sample_of_capture hp l tm, exec_sample_of_not_isEdge ?_ (not_isEdge_setPrev l _) tm'⟩
  rw [setPrev_phase]
  split
  · exact (captureEdge_phase l tm s).trans hp
  · exact hp

end

/-! PROOFS. DECODE: the threshold and the band in nanoseconds; what one slot does, by its stamps and its level;
what the loop has stored once it has passed a list of slots; and that nothing but the parameters and `TR`
decides it (spec/42_decode.md R87 to R93). -/

namespace Sys2Proof.Machine

/-! ### Classification and the band as numbers of nanoseconds (R88, R89) -/

theorem classify_eq_false_iff_durNs_lt {c : Config} (hc : c.Legal) {d : Duration}
    (hd : d.dnsec.toNat < nsPerSec) : classify c d = false ↔ durNs d < c.threshNs := by
  obtain ⟨-, ⟨-, hthresh⟩, -⟩ := hc
  exact (classify_eq_false_iff c d).trans (durBelow_iff d _ hd (Nat.lt_succ_of_le hthresh))

theorem classify_eq_decide {c : Config} (hc : c.Legal) {d : Duration}
    (hd : d.dnsec.toNat < nsPerSec) : classify c d = decide (c.threshNs ≤ durNs d) := by
  rw [Bool.eq_iff_iff, decide_eq_true_iff, ← Nat.not_lt, ← classify_eq_false_iff_durNs_lt hc hd,
    Bool.not_eq_false]

theorem outOfBand_iff {c : Config} (hc : c.Legal) {d : Duration} (hd : d.dnsec.toNat < nsPerSec) :
    outOfBand c d = true ↔ durNs d < c.diagLoNs ∨ c.diagHiNs < durNs d := by
  obtain ⟨-, -, ⟨hlo, hhi⟩, -⟩ := hc
  have hhi : c.diagHiNs < nsPerSec := Nat.lt_succ_of_le hhi
  rw [outOfBand, Bool.or_eq_true, durBelow_iff d _ hd (hlo.trans_lt hhi), durAbove_iff d _ hd hhi]

/-! ### One slot (R87, R91) -/

/-- The three things DECODE does with a slot: TIME_ERR, nothing for a transition to 1, one bit for a
transition to 0. -/
theorem decodeSlot_cases {s : State} {i : Nat} (ha : (s.slot (i - 1)).when.WellFormed)
    (hb : (s.slot i).when.WellFormed) :
    (stampedEarlier s i ∧ decodeSlot i s = raise .timeErr s) ∨
    (¬ stampedEarlier s i ∧ (s.slot i).toLevel = true ∧ decodeSlot i s = s) ∨
    (¬ stampedEarlier s i ∧ (s.slot i).toLevel = false ∧
      ∃ d : Duration, d.dnsec.toNat < nsPerSec ∧ durNs d = slotNs s i - slotNs s (i - 1) ∧
        decodeSlot i s = appendBit (classify s.cfg d) (flagBand d s)) := by
  have hnone : diff (s.slot (i - 1)).when (s.slot i).when = none ↔ stampedEarlier s i :=
    diff_eq_none_iff_timeNs_lt ha hb
  unfold decodeSlot
  split
  next hdiff => exact .inl ⟨hnone.1 hdiff, rfl⟩
  next d hdiff =>
    have hnot : ¬ stampedEarlier s i := by rw [← hnone, hdiff]; exact Option.some_ne_none d
    obtain ⟨hd, hsum⟩ := diff_eq_some _ _ d ha hb hdiff
    split
    next hfall => exact .inr (.inr ⟨hnot, hfall, d, hd, Nat.eq_sub_of_add_eq' hsum, rfl⟩)
    next hrise => exact .inr (.inl ⟨hnot, Bool.eq_true_of_not_eq_false hrise, rfl⟩)

/-! ### The bits held (R90) -/

theorem appendBit_flag {f : FaultFlag} (hf : f ≠ .bitOvf) (b : Bool) (s : State) :
    (appendBit b s).flag f = s.flag f := by
  obtain ⟨-, e⟩ | ⟨-, e⟩ := appendBit_cases b s
  · rw [e]
    rfl
  · rw [e, raise_flag, decide_eq_false hf.symm, Bool.false_or]

theorem appendBit_diagOob (b : Bool) (s : State) : (appendBit b s).pwd.diagOob = s.pwd.diagOob := by
  obtain ⟨-, e⟩ | ⟨-, e⟩ := appendBit_cases b s <;> simp only [e, raise_pwd]

/-- The bit buffer holds the first `BIT_CAP` of the bits `ys`, and BIT_OVF says whether there were more. -/
structure HoldsBits (ys : List Bool) (u : State) : Prop where
  count : u.pwd.bcount.toNat = min ys.length u.cfg.bitCap
  stored : ∀ j, j < u.pwd.bcount.toNat → ys[j]? = some (u.pwd.bits.getLsbD j)
  overflow : u.flag .bitOvf = true ↔ u.cfg.bitCap < ys.length

theorem HoldsBits.raise_timeErr {ys : List Bool} {u : State} (h : HoldsBits ys u) :
    HoldsBits ys (raise .timeErr u) :=
  ⟨h.count, h.stored, by rw [raise_flag]; exact h.overflow⟩

theorem HoldsBits.flagBand {ys : List Bool} {u : State} (h : HoldsBits ys u) (d : Duration) :
    HoldsBits ys (flagBand d u) :=
  ⟨h.count, h.stored, h.overflow⟩

theorem HoldsBits.appendBit {ys : List Bool} {u : State} (hc : u.cfg.Legal) (h : HoldsBits ys u)
    (b : Bool) : HoldsBits (ys ++ [b]) (appendBit b u) := by
  obtain ⟨hcount, hstored, hovf⟩ := h
  have hlen : (ys ++ [b]).length = ys.length + 1 := List.length_append
  obtain ⟨hroom, e⟩ | ⟨hfull, e⟩ := appendBit_cases b u
  · rw [e]
    have hcount' := bcount_succ_toNat hc hroom
    have hcap : u.cfg.bitCap ≤ 64 := hc.1.2
    have hnext : u.pwd.bcount.toNat = ys.length := by omega
    refine ⟨?_, fun j hj => ?_, hovf.trans ?_⟩
    · show (u.pwd.bcount + 1).toNat = min _ u.cfg.bitCap
      omega
    · have hj : j < ys.length + 1 := by rwa [← hnext, ← hcount']
      show _ = some ((writeBit u.pwd.bits u.pwd.bcount.toNat b).getLsbD j)
      rw [writeBit_getLsbD _ _ _ _ (by omega), hnext]
      split
      next hlast => rw [hlast, List.getElem?_concat_length]
      next hold =>
        rw [List.getElem?_append_left (by omega)]
        exact hstored j (by omega)
    · show _ ↔ u.cfg.bitCap < _
      omega
  · rw [e]
    refine ⟨?_, fun j hj => ?_, ?_⟩
    · simp only [raise_pwd, raise_cfg]
      omega
    · rw [raise_pwd] at hj ⊢
      rw [List.getElem?_append_left (by omega)]
      exact hstored j hj
    · simp only [raise_flag, decide_true, Bool.true_or, raise_cfg, true_iff]
      omega

/-! ### The slots passed by the loop (R87) -/

/-- What DECODE's loop, started in `s`, has made of it when it has passed the slots `slots`. -/
structure DecodedSlots (s : State) (slots : List Nat) (u : State) : Prop where
  cfg : u.cfg = s.cfg
  edr : u.edr = s.edr
  bits : HoldsBits (slots.filterMap (yieldedBit s)) u
  timeErr : u.flag .timeErr = true ↔ ∃ i ∈ slots, stampedEarlier s i
  band : u.pwd.diagOob = true ↔ ∃ i ∈ slots, outsideBand s i

/-- A predicate holds at an element of a list with one more at its end. -/
theorem exists_mem_concat_iff {P : Nat → Prop} {l : List Nat} {i : Nat} :
    (∃ j ∈ l ++ [i], P j) ↔ (∃ j ∈ l, P j) ∨ P i := by
  simp [or_and_right, exists_or]

theorem filterMap_concat_of_none {f : Nat → Option Bool} {l : List Nat} {i : Nat} (h : f i = none) :
    (l ++ [i]).filterMap f = l.filterMap f := by
  rw [List.filterMap_append, List.filterMap_cons_none h, List.filterMap_nil, List.append_nil]

/-- A slot stamped earlier, or a transition to 1, is not classified: it yields no bit (R87, R91). -/
theorem not_classified {s : State} {i : Nat} (h : (s.slot i).toLevel = true ∨ stampedEarlier s i) :
    ¬ ((s.slot i).toLevel = false ∧ slotNs s (i - 1) ≤ slotNs s i) :=
  fun ⟨hfall, hle⟩ => h.elim (fun hrise => Bool.noConfusion (hrise.symm.trans hfall)) (Nat.not_lt.2 hle)

theorem yieldedBit_eq_none {s : State} {i : Nat}
    (h : (s.slot i).toLevel = true ∨ stampedEarlier s i) : yieldedBit s i = none :=
  if_neg (not_classified h)

theorem not_outsideBand {s : State} {i : Nat}
    (h : (s.slot i).toLevel = true ∨ stampedEarlier s i) : ¬ outsideBand s i :=
  fun ⟨hfall, hle, _⟩ => not_classified h ⟨hfall, hle⟩

section
variable {s u : State} {slots : List Nat} {i : Nat}

theorem DecodedSlots.pass_earlier (h : DecodedSlots s slots u) (hearly : stampedEarlier s i) :
    DecodedSlots s (slots ++ [i]) (raise .timeErr u) where
  cfg := h.cfg
  edr := h.edr
  bits := by
    rw [filterMap_concat_of_none (yieldedBit_eq_none (.inr hearly))]
    exact h.bits.raise_timeErr
  timeErr := by simp [raise_flag, hearly]
  band := by
    rw [exists_mem_concat_iff, or_iff_left (not_outsideBand (.inr hearly))]
    exact h.band

theorem DecodedSlots.pass_rise (h : DecodedSlots s slots u) (hnot : ¬ stampedEarlier s i)
    (hrise : (s.slot i).toLevel = true) : DecodedSlots s (slots ++ [i]) u where
  cfg := h.cfg
  edr := h.edr
  bits := by
    rw [filterMap_concat_of_none (yieldedBit_eq_none (.inl hrise))]
    exact h.bits
  timeErr := by
    rw [exists_mem_concat_iff, or_iff_left hnot]
    exact h.timeErr
  band := by
    rw [exists_mem_concat_iff, or_iff_left (not_outsideBand (.inl hrise))]
    exact h.band

theorem DecodedSlots.pass_fall (hc : s.cfg.Legal) (h : DecodedSlots s slots u)
    (hnot : ¬ stampedEarlier s i) (hfall : (s.slot i).toLevel = false) {d : Duration}
    (hd : d.dnsec.toNat < nsPerSec) (hns : durNs d = slotNs s i - slotNs s (i - 1)) :
    DecodedSlots s (slots ++ [i]) (appendBit (classify s.cfg d) (flagBand d u)) where
  cfg := (appendBit_cfg _ _).trans h.cfg
  edr := (appendBit_edr _ _).trans h.edr
  bits := by
    have hbit : yieldedBit s i = some (classify s.cfg d) := by
      rw [classify_eq_decide hc hd, hns]
      exact if_pos ⟨hfall, Nat.not_lt.1 hnot⟩
    have hlegal : (flagBand d u).cfg.Legal := by rwa [flagBand_cfg, h.cfg]
    rw [List.filterMap_append, List.filterMap_cons_some hbit, List.filterMap_nil]
    exact (h.bits.flagBand d).appendBit hlegal _
  timeErr := by
    rw [exists_mem_concat_iff, or_iff_left hnot, appendBit_flag (by decide)]
    exact h.timeErr
  band := by
    have hout : outsideBand s i ↔ outOfBand s.cfg d = true := by
      rw [outOfBand_iff hc hd, hns, outsideBand, and_iff_right hfall, and_iff_right (Nat.not_lt.1 hnot)]
    rw [exists_mem_concat_iff, hout, ← h.band, appendBit_diagOob, flagBand_pwd, Bool.or_eq_true, h.cfg]

theorem DecodedSlots.slot (h : DecodedSlots s slots u) (j : Nat) : u.slot j = s.slot j := by
  rw [State.slot, h.edr, State.slot]

/-- The loop's body keeps the account of the slots passed. -/
theorem DecodedSlots.pass (hs : Inv s) (h : DecodedSlots s slots u) (hi : i < s.edr.tcount.toNat) :
    DecodedSlots s (slots ++ [i]) (decodeSlot i u) := by
  have hstamp : ∀ j, j ≤ i → (u.slot j).when.WellFormed := fun j hj => by
    rw [h.slot]
    exact hs.trStamps j (hj.trans_lt hi)
  have hcases := decodeSlot_cases (hstamp (i - 1) (Nat.sub_le i 1)) (hstamp i le_rfl)
  simp only [stampedEarlier, slotNs, h.slot, h.cfg] at hcases
  obtain ⟨hearly, e⟩ | ⟨hnot, hrise, e⟩ | ⟨hnot, hfall, d, hd, hns, e⟩ := hcases <;> rw [e]
  · exact h.pass_earlier hearly
  · exact h.pass_rise hnot hrise
  · exact h.pass_fall hs.cfgLegal hnot hfall hd hns

end

theorem Inv.slot_valid_iff {s : State} (h : Inv s) (i : Nat) :
    (s.slot i).valid = true ↔ i < s.edr.tcount.toNat := by
  refine ⟨fun hvalid => Nat.lt_of_not_le fun hle => ?_, h.trFilled i⟩
  rw [h.trEmpty i hle] at hvalid
  exact Bool.noConfusion hvalid

/-- The loop passes the slots that are filled, in order. -/
theorem DecodedSlots.decodeLoop {s : State} (hs : Inv s) (n : Nat) :
    ∀ {i : Nat} {slots : List Nat} {u : State}, DecodedSlots s slots u →
      s.edr.tcount.toNat ≤ i + n →
        DecodedSlots s (slots ++ List.range' i (s.edr.tcount.toNat - i)) (decodeLoop n i u) := by
  have hstop : ∀ {i slots u}, DecodedSlots s slots u → s.edr.tcount.toNat ≤ i →
      DecodedSlots s (slots ++ List.range' i (s.edr.tcount.toNat - i)) u := fun h hle => by
    rwa [Nat.sub_eq_zero_of_le hle, List.range'_zero, List.append_nil]
  induction n with
  | zero => exact fun h hle => hstop h hle
  | succ n ih =>
    intro i slots u h hle
    rw [Machine.decodeLoop, h.slot]
    split
    next hvalid =>
      have hi := (hs.slot_valid_iff i).1 hvalid
      have hrange : List.range' i (s.edr.tcount.toNat - i) =
          i :: List.range' (i + 1) (s.edr.tcount.toNat - (i + 1)) := by
        rw [← List.range'_succ]
        congr 1
        omega
      rw [hrange, List.append_cons]
      exact ih (h.pass hs hi) (by omega)
    next hempty => exact hstop h (Nat.le_of_not_lt (mt (hs.slot_valid_iff i).2 hempty))

/-- No bit is held and no flag of DECODE's is set while the attempt is open (10_state.md R43 item 5). -/
theorem Inv.decodedSlots_nil {s : State} (h : Inv s) (hp : s.phase = .capture) :
    DecodedSlots s [] s := by
  obtain ⟨hpwd, hfault, -⟩ := h.captureClean hp
  obtain ⟨hovf, htime⟩ := (decodeFlags_eq_zero_iff s).1 hfault
  refine ⟨rfl, rfl, ⟨?_, ?_, ?_⟩, ?_, ?_⟩ <;> simp [hpwd, hovf, htime, Pwd.cleared]

/-- The loop of a whole DECODE passes slots 1 and up. -/
theorem Inv.decodeLoop_decodedSlots {s : State} (h : Inv s) (hp : s.phase = .capture) :
    DecodedSlots s (List.range' 1 (s.edr.tcount.toNat - 1)) (decodeLoop (s.cfg.transCap - 1) 1 s) :=
  DecodedSlots.decodeLoop h _ (h.decodedSlots_nil hp) (by have := h.tcountBound; omega)

theorem exists_mem_slots_iff {P : Nat → Prop} {n : Nat} :
    (∃ i ∈ List.range' 1 (n - 1), P i) ↔ ∃ i, 1 ≤ i ∧ i < n ∧ P i := by
  refine exists_congr fun i => ?_
  rw [List.mem_range'_1, and_assoc]
  refine and_congr_right fun hi => and_congr_left' ?_
  omega

/-! ### The end of DECODE (R92) -/

theorem finishDecode_insufficient_iff (s : State) :
    (finishDecode s).pwd.insufficient = true ↔ (finishDecode s).pwd.bcount.toNat < 40 :=
  decide_eq_true_iff

theorem exec_decode_of_capture {s : State} (hp : s.phase = .capture) :
    exec .decode s = .next (finishDecode (decodeLoop (s.cfg.transCap - 1) 1 s)) :=
  execDecode_capture s hp

/-! ### DECODE looks at the parameters and `TR` only (R93) -/

/-- Two states agree in what DECODE reads and in what it writes. -/
structure SameForDecode (a b : State) : Prop where
  cfg : a.cfg = b.cfg
  tr : a.edr.tr = b.edr.tr
  pwd : a.pwd = b.pwd
  timeErr : a.flag .timeErr = b.flag .timeErr
  bitOvf : a.flag .bitOvf = b.flag .bitOvf

section
variable {a b : State}

theorem SameForDecode.slot (h : SameForDecode a b) (i : Nat) : a.slot i = b.slot i := by
  rw [State.slot, h.tr, State.slot]

theorem SameForDecode.raise (h : SameForDecode a b) (f : FaultFlag) :
    SameForDecode (raise f a) (raise f b) :=
  { h with
    timeErr := by rw [raise_flag, raise_flag, h.timeErr]
    bitOvf := by rw [raise_flag, raise_flag, h.bitOvf] }

theorem SameForDecode.flagBand (h : SameForDecode a b) (d : Duration) :
    SameForDecode (flagBand d a) (flagBand d b) :=
  { h with pwd := by rw [flagBand_pwd, flagBand_pwd, h.pwd, h.cfg] }

theorem SameForDecode.appendBit (h : SameForDecode a b) (x : Bool) :
    SameForDecode (appendBit x a) (appendBit x b) := by
  simp only [Machine.appendBit, h.pwd, h.cfg]
  split
  · exact ⟨rfl, h.tr, rfl, h.timeErr, h.bitOvf⟩
  · exact h.raise .bitOvf

theorem SameForDecode.decodeSlot (h : SameForDecode a b) (i : Nat) :
    SameForDecode (decodeSlot i a) (decodeSlot i b) := by
  simp only [Machine.decodeSlot, h.slot, h.cfg]
  split
  · exact h.raise .timeErr
  next d _ =>
    split
    · exact (h.flagBand d).appendBit _
    · exact h

end

theorem SameForDecode.decodeLoop (n : Nat) : ∀ {a b : State} (i : Nat), SameForDecode a b →
    SameForDecode (decodeLoop n i a) (decodeLoop n i b) := by
  induction n with
  | zero => exact fun _ h => h
  | succ n ih =>
    intro a b i h
    simp only [Machine.decodeLoop, h.slot]
    split
    · exact ih (i + 1) (h.decodeSlot i)
    · exact h

/-- While the attempt is open, PWD and its two flags are clear, so `TR` is all there is to agree in
(10_state.md R43 item 5). -/
theorem Inv.sameForDecode {a b : State} (ha : Inv a) (hb : Inv b) (hpa : a.phase = .capture)
    (hpb : b.phase = .capture) (hcfg : a.cfg = b.cfg) (htr : a.edr.tr = b.edr.tr) :
    SameForDecode a b := by
  obtain ⟨hpwd, hfault, -⟩ := ha.captureClean hpa
  obtain ⟨hpwd', hfault', -⟩ := hb.captureClean hpb
  obtain ⟨hovf, htime⟩ := (decodeFlags_eq_zero_iff a).1 hfault
  obtain ⟨hovf', htime'⟩ := (decodeFlags_eq_zero_iff b).1 hfault'
  exact ⟨hcfg, htr, hpwd.trans hpwd'.symm, htime.trans htime'.symm, hovf.trans hovf'.symm⟩

end Sys2Proof.Machine

/-! ### The obligations of 42_decode.md -/

section
open Sys2Proof Sys2Proof.Machine

/-- Settles O26: the constants of a legal configuration are below one second, where the tests on the fields
compare numbers. -/
theorem classificationAndBand : Obligations.ClassificationAndBand := fun _ _ hc hd =>
  ⟨classify_eq_false_iff_durNs_lt hc hd, outOfBand_iff hc hd⟩

/-- Settles O27: the account of the slots passed, at the end of the loop. -/
theorem decodeComputesTheYieldedBits : Obligations.DecodeComputesTheYieldedBits := by
  intro s hs hp
  have hx := exec_decode_of_capture hp
  have hloop := hs.decodeLoop_decodedSlots hp
  have hframe := decodeLoop_frame (s.cfg.transCap - 1) 1 s
  have hflag := fun f => (decodeLoop_flag f (s.cfg.transCap - 1) 1 s).2
  have hinv : Inv (finishDecode (decodeLoop (s.cfg.transCap - 1) 1 s)) := execDecode_keeps_inv hs hx
  generalize decodeLoop (s.cfg.transCap - 1) 1 s = u at hx hloop hframe hflag hinv
  obtain ⟨hcfg, -, ⟨hcount, hstored, hovf⟩, htime, hband⟩ := hloop
  rw [exists_mem_slots_iff] at htime hband
  rw [hcfg] at hcount hovf
  refine ⟨finishDecode u, hx, rfl, hcount, fun i hi => ?_, fun i hi => ?_, hovf, htime, hband,
    finishDecode_insufficient_iff u, hflag _ (by decide) (by decide), hflag _ (by decide) (by decide),
    hflag _ (by decide) (by decide), ?_⟩
  · have hcap : i < (finishDecode u).cfg.bitCap := hi.trans_le hinv.bcountBound
    rw [bit_eq_and _ hinv.cfgLegal, decide_eq_true hcap, Bool.true_and]
    exact hstored i hi
  · rw [bit_eq_and _ hinv.cfgLegal, hinv.bitsEmpty i hi, Bool.and_false]
  · rw [hframe]
    rfl

/-- Settles O28: the loop changes PWD's registers and FAULT only, and sets no flag but TIME_ERR and
BIT_OVF. -/
theorem decodeFrame : Obligations.DecodeFrame := by
  intro s hp
  have hx := exec_decode_of_capture hp
  have hframe := decodeLoop_frame (s.cfg.transCap - 1) 1 s
  have hflag := fun f => decodeLoop_flag f (s.cfg.transCap - 1) 1 s
  generalize decodeLoop (s.cfg.transCap - 1) 1 s = u at hx hframe hflag
  refine ⟨finishDecode u, hx, rfl, ?_, ?_, ?_, ?_, ?_, ?_, fun i => ?_, fun f => (hflag f).2,
    fun f => (hflag f).1, finishDecode_insufficient_iff u⟩
  all_goals
    rw [hframe]
    rfl

/-- Settles O29: agreement in what DECODE reads and writes is kept by every slot of the loop. -/
theorem decodeDependsOnTransitionsOnly : Obligations.DecodeDependsOnTransitionsOnly := by
  intro s₁ s₂ h₁ h₂ hp₁ hp₂ hcfg htr
  have hloop := (h₁.sameForDecode h₂ hp₁ hp₂ hcfg htr).decodeLoop (s₁.cfg.transCap - 1) 1
  refine ⟨_, _, exec_decode_of_capture hp₁, exec_decode_of_capture hp₂, ?_⟩
  rw [← hcfg]
  exact ⟨by rw [finishDecode_pwd, finishDecode_pwd, hloop.pwd], hloop.timeErr, hloop.bitOvf⟩

end

/-! PROOFS. VALIDATE (spec/43_validate.md): a packed window is the five sums of R96, the search ends at the
passing window with the largest start index or after all windows have failed (R94, R95), and it looks at the
attempt flags but not at SEQ_ERR and CMD_ERR (R100). -/

namespace Sys2Proof.Machine

/-- VALIDATE in DECODED. -/
theorem exec_validate_of_decoded {s : State} (hp : s.phase = .decoded) :
    exec .validate s = .next { s with
      fv := if s.attemptFlags = 0 then searchWindows s s.pwd.bcount.toNat s.fv else s.fv
      phase := .done } :=
  execValidate_decoded s hp

/-- FV on entry to VALIDATE (10_state.md R43 item 6). -/
theorem Inv.fv_of_decoded {s : State} (hs : Inv s) (hp : s.phase = .decoded) : s.fv = Fv.cleared :=
  (hs.decodedClean hp).1

theorem Inv.bcount_le_64 {s : State} (hs : Inv s) : s.pwd.bcount.toNat ≤ 64 := by
  obtain ⟨⟨-, hcap⟩, -⟩ := hs.cfgLegal
  exact hs.bcountBound.trans hcap

/-- VALIDATE in DECODED when no flag of the attempt is set, from the cleared FV. -/
theorem Inv.exec_validate_intact {s : State} (hs : Inv s) (hp : s.phase = .decoded)
    (hflags : s.attemptFlags = 0) :
    exec .validate s =
      .next { s with fv := searchWindows s s.pwd.bcount.toNat Fv.cleared, phase := .done } := by
  rw [exec_validate_of_decoded hp, if_pos hflags, hs.fv_of_decoded hp]

/-! ### A packed window (43_validate.md R96, R97) -/

theorem packByte_toNat_eq_windowByte (s : State) (a j : Nat) :
    (packByte s (a + 8 * j)).toNat = windowByte s a j :=
  packByte_toNat s _

theorem holdsWindow_of_frame_eq {v : Fv} {s : State} {a : Nat} (h : v.frame = packWindow s a) :
    holdsWindow v s a := by
  have hbyte := packByte_toNat_eq_windowByte s a
  rw [holdsWindow, h]
  exact ⟨hbyte 0, hbyte 1, hbyte 2, hbyte 3, hbyte 4⟩

theorem windowPasses_iff (s : State) (a : Nat) :
    windowPasses s a ↔ a + 40 ≤ s.pwd.bcount.toNat ∧ (packWindow s a).passes = true := by
  have hbyte := packByte_toNat_eq_windowByte s a
  rw [windowPasses, Frame.passes_iff, ← hbyte 0, ← hbyte 1, ← hbyte 2, ← hbyte 3, ← hbyte 4]
  rfl

theorem not_passes_of_not_windowPasses {s : State} {a : Nat} (h : ¬ windowPasses s a)
    (ha : a + 40 ≤ s.pwd.bcount.toNat) : ¬ (packWindow s a).passes = true :=
  fun hpass => h ((windowPasses_iff s a).2 ⟨ha, hpass⟩)

/-! ### The search as a whole (43_validate.md R94, R95, R98) -/

theorem testWindow_of_passes {f : Frame} (hf : f.passes = true) (a : Nat) (v : Fv) :
    testWindow a f v = ⟨true, BitVec.ofNat 8 a, v.tries + 1, f, f.byte0 ++ f.byte1,
      f.byte2 ++ f.byte3⟩ :=
  if_pos hf

theorem testWindow_of_not_passes {f : Frame} (hf : ¬ f.passes = true) (a : Nat) (v : Fv) :
    testWindow a f v = { v with tries := v.tries + 1, frame := f } :=
  if_neg hf

/-- FV after the `k` windows that start at `a` to `a + k - 1` were tested, the last first, and failed. -/
def afterFailures (s : State) (a k : Nat) (v : Fv) : Fv :=
  { v with
    tries := v.tries + BitVec.ofNat 8 k
    frame := if k = 0 then v.frame else packWindow s a }

theorem afterFailures_zero (s : State) (a : Nat) (v : Fv) : afterFailures s a 0 v = v := by
  simp [afterFailures]

theorem afterFailures_succ (s : State) (a k : Nat) (v : Fv) :
    afterFailures s a k { v with tries := v.tries + 1, frame := packWindow s (a + k) } =
      afterFailures s a (k + 1) v := by
  have htries : v.tries + 1 + BitVec.ofNat 8 k = v.tries + BitVec.ofNat 8 (k + 1) := by
    rw [BitVec.ofNat_add]
    ac_rfl
  have hframe : (if k = 0 then packWindow s (a + k) else packWindow s a) = packWindow s a := by
    split
    next hk => rw [hk, Nat.add_zero]
    next => rfl
  simp only [afterFailures, htries, hframe, Nat.succ_ne_zero, if_false]

/-- `tries` counts the failures: it is wide enough for every number of windows 64 bits hold. -/
theorem afterFailures_cleared_tries_toNat (s : State) (a : Nat) {k : Nat} (hk : k ≤ 25) :
    (afterFailures s a k Fv.cleared).tries.toNat = k := by
  have htries : (afterFailures s a k Fv.cleared).tries = BitVec.ofNat 8 k := BitVec.zero_add _
  rw [htries, BitVec.toNat_ofNat, Nat.mod_eq_of_lt (by omega)]

/-- Windows that fail, from the last one down to the one at `a`, leave the search to go on with the window
before it. -/
theorem searchWindows_of_failures (s : State) (a k : Nat) : ∀ v : Fv, v.valOk = false →
    (∀ b, a ≤ b → b < a + k → ¬ (packWindow s b).passes = true) →
    searchWindows s (a + k + 39) v = searchWindows s (a + 39) (afterFailures s a k v) := by
  induction k with
  | zero => intro v _ _; rw [afterFailures_zero, Nat.add_zero]
  | succ k ih =>
    intro v hv hfail
    have hlast := hfail (a + k) (by omega) (by omega)
    have hrest := ih { v with tries := v.tries + 1, frame := packWindow s (a + k) } hv
      fun b hab hb => hfail b hab (by omega)
    rw [show a + (k + 1) + 39 = a + k + 40 by omega, searchWindows_try s _ v hv, if_neg hlast,
      testWindow_of_not_passes hlast, hrest, afterFailures_succ]

/-- When every window fails, all `n - 39` are tested and the last is the one at 0. -/
theorem searchWindows_of_none_passes {s : State} {n : Nat} {v : Fv} (hv : v.valOk = false)
    (hfail : ∀ b, b + 40 ≤ n → ¬ (packWindow s b).passes = true) :
    searchWindows s n v = afterFailures s 0 (n - 39) v := by
  by_cases hn : n < 40
  · rw [searchWindows_short s n v hn, show n - 39 = 0 by omega, afterFailures_zero]
  · have h := searchWindows_of_failures s 0 (n - 39) v hv fun b _ hb => hfail b (by omega)
    rwa [show 0 + (n - 39) + 39 = n by omega, searchWindows_short s (0 + 39) _ (by decide)] at h

/-- The window at `a` passes and all later ones fail: it is the one the search ends with. -/
theorem searchWindows_of_last_passes {s : State} {a n : Nat} {v : Fv} (hv : v.valOk = false)
    (ha : a + 40 ≤ n) (hpass : (packWindow s a).passes = true)
    (hfail : ∀ b, a < b → b + 40 ≤ n → ¬ (packWindow s b).passes = true) :
    searchWindows s n v =
      testWindow a (packWindow s a) (afterFailures s (a + 1) (n - 40 - a) v) := by
  have h := searchWindows_of_failures s (a + 1) (n - 40 - a) v hv
    fun b hab hb => hfail b hab (by omega)
  have hv' : (afterFailures s (a + 1) (n - 40 - a) v).valOk = false := hv
  rwa [show a + 1 + (n - 40 - a) + 39 = n by omega, show a + 1 + 39 = a + 40 by omega,
    searchWindows_try s a _ hv', if_pos hpass] at h

/-- The search does not look at FAULT. -/
theorem searchWindows_with_fault (s : State) (fault : BitVec 5) (e : Nat) : ∀ v : Fv,
    searchWindows { s with fault := fault } e v = searchWindows s e v := by
  induction e with
  | zero => exact fun _ => rfl
  | succ e ih =>
    intro v
    simp only [searchWindows, ih]
    rfl

end Sys2Proof.Machine

/-! ### The obligations of 43_validate.md -/

section
open Sys2Proof Sys2Proof.Machine

/-- Settles O30: each of the five bytes is packed by the one function, whose value is the sum of R96. -/
theorem windowPackingIsMsbFirst : Obligations.WindowPackingIsMsbFirst := fun s a =>
  have hbyte := packByte_toNat_eq_windowByte s a
  ⟨hbyte 0, hbyte 1, hbyte 2, hbyte 3, hbyte 4⟩

/-- Settles O32: the search skips the later windows, which fail, and ends at the one that passes. -/
theorem validateAcceptsMostRecentWindow : Obligations.ValidateAcceptsMostRecentWindow := by
  intro s a hs hp hflags hpass hlater
  obtain ⟨hfits, hpasses⟩ := (windowPasses_iff s a).1 hpass
  have hheld := hs.bcount_le_64
  have hsearch := searchWindows_of_last_passes (v := Fv.cleared) rfl hfits hpasses
    fun b hab => not_passes_of_not_windowPasses (hlater b hab)
  rw [testWindow_of_passes hpasses] at hsearch
  have hbyte := packByte_toNat_eq_windowByte s a
  refine ⟨_, hs.exec_validate_intact hp hflags, ?_⟩
  rw [hsearch]
  refine ⟨rfl, Nat.mod_eq_of_lt (by omega), ?_, holdsWindow_of_frame_eq rfl, ?_, ?_, rfl⟩
  · have htries := afterFailures_cleared_tries_toNat s (a + 1)
      (show s.pwd.bcount.toNat - 40 - a ≤ 25 by omega)
    rw [BitVec.toNat_add, htries, show (1 : BitVec 8).toNat = 1 from rfl]
    omega
  · rw [← hbyte 0, ← hbyte 1]
    exact append_toNat _ _
  · rw [← hbyte 2, ← hbyte 3]
    exact append_toNat _ _

/-- Settles O33: a search in which every window fails writes `tries` and the bytes only. -/
theorem validateFailureLeavesZeroResults : Obligations.ValidateFailureLeavesZeroResults := by
  intro s hs hp hflags hnone
  have hheld := hs.bcount_le_64
  refine ⟨_, hs.exec_validate_intact hp hflags, ?_⟩
  rw [searchWindows_of_none_passes (v := Fv.cleared) rfl fun b =>
    not_passes_of_not_windowPasses (hnone b)]
  exact ⟨rfl, rfl, rfl, rfl, afterFailures_cleared_tries_toNat s 0 (by omega),
    fun hlong => holdsWindow_of_frame_eq (if_neg (by omega)), fun hshort => if_pos (by omega), rfl⟩

/-- Settles O34: VALIDATE looks at FAULT through the attempt flags only, and searches only when all three
are 0. -/
theorem validateRejectsDamagedAttempt : Obligations.ValidateRejectsDamagedAttempt := by
  constructor
  · intro s hs hp hdamaged
    have hflags : ¬ s.attemptFlags = 0 := by
      rw [attemptFlags_eq_zero_iff]
      rintro ⟨htr, hbit, htime⟩
      simp [htr, hbit, htime] at hdamaged
    exact ⟨by rw [exec_validate_of_decoded hp, if_neg hflags], hs.fv_of_decoded hp⟩
  · intro s fault hp hsame
    have hflags : State.attemptFlags { s with fault := fault } = s.attemptFlags := hsame
    refine ⟨_, exec_validate_of_decoded hp, ?_⟩
    rw [exec_validate_of_decoded (s := { s with fault := fault }) hp, hflags,
      searchWindows_with_fault]

/-- Settles O31: addition of bytes is addition modulo 256. -/
theorem checksumIsSumModulo256 : Obligations.ChecksumIsSumModulo256 := fun f =>
  ⟨by simp only [Frame.checksum, BitVec.toNat_add]; omega, f.passes_iff⟩

/-- Settles O35: the next state is the same but for FV's registers and the phase. -/
theorem validateFrame : Obligations.ValidateFrame := fun _ hp =>
  ⟨_, exec_validate_of_decoded hp, rfl, rfl, rfl, rfl, rfl, rfl, rfl, rfl, fun _ => rfl, fun _ => rfl⟩

end

/-! PROOFS. Control and read-out (spec/44_control_readout.md): what NOP, CLEAR, RD, RDT and an ILLEGAL word do
(R102 to R106), and the phase table: a command out of phase only raises SEQ_ERR, any other leads to the phase
of its cell and leaves SEQ_ERR alone (R107, R108). -/

namespace Sys2Proof.Machine

/-! ### Words, and NOP's opcode (R102, R106) -/

theorem runWord_of_decode_ok {w : CmdWord} {i : Instr} (hd : decode w = .ok i) (s : State) :
    runWord w s = exec i s := by
  simp only [runWord, hd]

theorem runWord_of_decode_error {w : CmdWord} {e : Illegal} (hd : decode w = .error e) (s : State) :
    runWord w s = .next (raise .cmdErr s) := by
  simp only [runWord, hd, execIllegal]

/-- A word with NOP's opcode and a payload other than 0 is ILLEGAL (30_encoding.md R71). -/
theorem decode_nop_opcode_of_ne_zero {w : CmdWord} (hop : w.toNat / 2 ^ 64 = 0) (hw : w ≠ 0) :
    decode w = .error .payloadNotZero := by
  have hpos : w.toNat ≠ 0 := fun h => hw (BitVec.eq_of_toNat_eq h)
  have hpayload : w.toNat % 2 ^ 64 ≠ 0 := by omega
  rw [decode_of_opcode .nop hop]
  exact (decodeZ_eq .nop w).trans (if_neg hpayload)

/-! ### CLEAR (R103) -/

/-- CLEAR gives the reset state but for FAULT[4:3] and the ports. -/
theorem exec_clear_eq (s : State) : exec .clear s = .next { State.resetWith s.cfg with
    fault := (clearAttemptFlags s).fault, port := s.port, rsp := s.rsp, responses := s.responses } :=
  rfl

theorem exec_clear_resetWith (c : Config) :
    exec .clear (State.resetWith c) = .next (State.resetWith c) := by
  have hfault : (clearAttemptFlags (State.resetWith c)).fault = 0 := BitVec.zero_and
  rw [exec_clear_eq, hfault]
  rfl

/-- FAULT has no bits but its five flags (10_state.md R34). -/
theorem fault_eq_of_flag_eq {s t : State} (h : ∀ f, s.flag f = t.flag f) : s.fault = t.fault := by
  refine BitVec.eq_of_getLsbD_eq fun i hi => ?_
  match i, hi with
  | 0, _ => exact h .trOvf
  | 1, _ => exact h .bitOvf
  | 2, _ => exact h .timeErr
  | 3, _ => exact h .seqErr
  | 4, _ => exact h .cmdErr

/-- What CLEAR keeps of FAULT is SEQ_ERR and CMD_ERR. -/
theorem clearAttemptFlags_fault_eq {s t : State} (hseq : s.flag .seqErr = t.flag .seqErr)
    (hcmd : s.flag .cmdErr = t.flag .cmdErr) :
    (clearAttemptFlags s).fault = (clearAttemptFlags t).fault := by
  refine fault_eq_of_flag_eq fun f => ?_
  rw [clearAttemptFlags_flag, clearAttemptFlags_flag]
  cases f with
  | seqErr => rw [hseq]
  | cmdErr => rw [hcmd]
  | trOvf => rfl
  | bitOvf => rfl
  | timeErr => rfl

/-! ### Refused reads, and the fields of a slot's word (R104, R105) -/

theorem ofNumber_of_reserved {reg : BitVec 5} (h : 8 ≤ reg.toNat) : RegName.ofNumber reg = none := by
  rw [← Option.not_isSome_iff_eq_none, RegName.ofNumber_isSome_iff, decide_eq_true_iff]
  omega

theorem exec_rd_of_reserved {reg : BitVec 5} (h : 8 ≤ reg.toNat) (s : State) :
    exec (.rd reg) s = .next (respond 0 (raise .cmdErr s)) := by
  simp only [exec, execRd, ofNumber_of_reserved h]

theorem exec_rdt_of_out_of_range {idx : BitVec 16} {s : State} (h : s.cfg.transCap ≤ idx.toNat) :
    exec (.rdt idx) s = .next (respond 0 (raise .cmdErr s)) := by
  have hslot : readSlot idx s = none := if_neg (Nat.not_lt.2 h)
  simp only [exec, execRdt, hslot]

/-- The fields of a slot's word (20_memory.md R46). -/
theorem Slot.word_fields (v : Slot) :
    v.word.getLsbD 63 = v.valid ∧ v.word.getLsbD 62 = v.toLevel ∧
    v.word.extractLsb' 30 32 = v.when.sec ∧ v.word.extractLsb' 0 30 = v.when.nsec := by
  have hvalid := v.valid.toNat_lt
  have hlevel := v.toLevel.toNat_lt
  simp only [extractLsb'_eq_iff_toNat, getLsbD_eq_iff_toNat, Slot.word_toNat]
  omega

theorem Slot.word_empty : Slot.empty.word = 0 := by decide

/-! ### The phase table by its columns (R107, R108) -/

/-- A command looks at the phase only if it is SAMPLE or DECODE, accepted in CAPTURE alone, or VALIDATE,
accepted in DECODED alone. -/
theorem outOfPhase_eq (p : Phase) (i : Instr) : outOfPhase p i = match i with
    | .sample _ _ | .decode => decide (p ≠ .capture)
    | .validate => decide (p ≠ .decoded)
    | _ => false := by
  cases i <;> cases p <;> rfl

/-- CLEAR opens an attempt; DECODE and VALIDATE go on from the one phase that accepts them. -/
theorem nextPhase_eq (p : Phase) (i : Instr) : nextPhase p i = match i with
    | .clear => .capture
    | .decode => if p = .capture then .decoded else p
    | .validate => if p = .decoded then .done else p
    | _ => p := by
  cases i <;> cases p <;> rfl

theorem nextPhase_of_outOfPhase {p : Phase} {i : Instr} (h : outOfPhase p i = true) :
    nextPhase p i = p := by
  rw [nextPhase_eq]
  rw [outOfPhase_eq] at h
  cases i with
  | decode => exact if_neg (of_decide_eq_true h)
  | validate => exact if_neg (of_decide_eq_true h)
  | clear => exact Bool.noConfusion h
  | nop | sample | rd | rdt => rfl

/-- A command out of phase sets SEQ_ERR and does nothing else (R107). -/
theorem exec_of_outOfPhase {s : State} {i : Instr} (h : outOfPhase s.phase i = true) :
    exec i s = .next (raise .seqErr s) := by
  rw [outOfPhase_eq] at h
  cases i with
  | sample level tm => exact exec_sample_of_not_capture (of_decide_eq_true h) level tm
  | decode => exact if_neg (of_decide_eq_true h)
  | validate => exact if_neg (of_decide_eq_true h)
  | nop | clear | rd | rdt => exact Bool.noConfusion h

/-- SAMPLE in CAPTURE raises no flag but TR_OVF (41_capture.md R85). -/
theorem captureEdge_flag {f : FaultFlag} (hf : f ≠ .trOvf) (l : Level) (tm : Timestamp) (s : State) :
    (captureEdge l tm s).flag f = s.flag f := by
  unfold captureEdge
  split
  · rfl
  · rw [raise_flag, decide_eq_false hf.symm, Bool.false_or]

/-- A refused read raises no flag but CMD_ERR. -/
theorem respond_raise_cmdErr_flag {f : FaultFlag} (hf : f ≠ .cmdErr) (v : RegWord) (s : State) :
    (respond v (raise .cmdErr s)).flag f = s.flag f :=
  (raise_flag .cmdErr f s).trans (by rw [decide_eq_false hf.symm, Bool.false_or])

/-- A command in a phase that accepts it goes to the phase of its cell and leaves SEQ_ERR alone. -/
theorem exec_of_accepted {s : State} {i : Instr} (h : outOfPhase s.phase i = false) :
    ∃ t, exec i s = .next t ∧ t.phase = nextPhase s.phase i ∧ t.flag .seqErr = s.flag .seqErr := by
  rw [nextPhase_eq]
  rw [outOfPhase_eq] at h
  cases i with
  | nop => exact ⟨s, rfl, rfl, rfl⟩
  | clear => exact ⟨_, rfl, rfl, clearAttemptFlags_flag .seqErr _⟩
  | sample l tm =>
    have hp : s.phase = .capture := of_not_not (of_decide_eq_false h)
    refine ⟨_, exec_sample_of_capture hp l tm, ?_⟩
    split
    · exact ⟨captureEdge_phase l tm s, captureEdge_flag (by decide) l tm s⟩
    · exact ⟨rfl, rfl⟩
  | decode =>
    have hp : s.phase = .capture := of_not_not (of_decide_eq_false h)
    have hflag := (decodeLoop_flag .seqErr (s.cfg.transCap - 1) 1 s).2
    exact ⟨_, exec_decode_of_capture hp, (if_pos hp).symm, hflag (by decide) (by decide)⟩
  | validate =>
    have hp : s.phase = .decoded := of_not_not (of_decide_eq_false h)
    exact ⟨_, exec_validate_of_decoded hp, (if_pos hp).symm, rfl⟩
  | rd reg =>
    rcases Nat.lt_or_ge reg.toNat 8 with hreg | hreg
    · obtain ⟨r, hr⟩ := exists_ofNumber_of_lt hreg
      exact ⟨_, exec_rd_of_ofNumber hr s, rfl, rfl⟩
    · exact ⟨_, exec_rd_of_reserved hreg s, rfl, respond_raise_cmdErr_flag (by decide) 0 s⟩
  | rdt idx =>
    rcases Nat.lt_or_ge idx.toNat s.cfg.transCap with hidx | hidx
    · exact ⟨_, exec_rdt_of_lt hidx, rfl, rfl⟩
    · exact ⟨_, exec_rdt_of_out_of_range hidx, rfl, respond_raise_cmdErr_flag (by decide) 0 s⟩

end Sys2Proof.Machine

/-! ### The obligations of 44_control_readout.md -/

section
open Sys2Proof Sys2Proof.Machine

/-- Settles O36: the number names a register, or RD is refused. -/
theorem rdRespondsOrIsRefused : Obligations.RdRespondsOrIsRefused := by
  refine fun s reg => ⟨fun hreg => ?_, fun hreg => exec_rd_of_reserved hreg s⟩
  obtain ⟨r, hr⟩ := exists_ofNumber_of_lt hreg
  exact ⟨r, hr, exec_rd_of_ofNumber hr s⟩

/-- Settles O43: the index names a slot, whose word has the fields of R46, or RDT is refused. -/
theorem rdtRespondsOrIsRefused : Obligations.RdtRespondsOrIsRefused := by
  refine fun s idx => ⟨fun hidx => ?_, exec_rdt_of_out_of_range⟩
  obtain ⟨hvalid, hlevel, hsec, hnsec⟩ := Slot.word_fields (s.slot idx.toNat)
  exact ⟨_, exec_rdt_of_lt hidx, hvalid, hlevel, hsec, hnsec, fun h => by rw [h, Slot.word_empty]⟩

/-- Settles O46: a cell marked SEQ raises SEQ_ERR and stays, any other goes to its phase and leaves SEQ_ERR
alone; an ILLEGAL word raises CMD_ERR only. -/
theorem phaseTable : Obligations.PhaseTable := by
  refine ⟨fun s i => ?_, fun s w e hd => ?_, fun s rest hp => ⟨_, step_of_reset hp, rfl⟩⟩
  · cases hcell : outOfPhase s.phase i with
    | true =>
      refine ⟨_, exec_of_outOfPhase hcell, (nextPhase_of_outOfPhase hcell).symm, ?_⟩
      rw [raise_flag, Bool.or_true]
      rfl
    | false =>
      obtain ⟨t, hx, hphase, hflag⟩ := exec_of_accepted hcell
      exact ⟨t, hx, hphase, hflag.trans (Bool.or_false _).symm⟩
  · exact ⟨_, runWord_of_decode_error hd s, rfl, raise_flag .cmdErr .seqErr s⟩

/-- Settles O8: taking the word is exactly the update of `port` and `rsp` that the statement writes. -/
theorem stepIllegalWordSetsCmdErrOnly : Obligations.StepIllegalWordSetsCmdErrOnly :=
  fun _ _ _ _ hp hd => step_of_decode_error hp hd

/-- Settles O16: the word 0 decodes to NOP, and every other word with its opcode to none. -/
theorem nopChangesNothing : Obligations.NopChangesNothing := by
  refine ⟨fun s => ⟨rfl, ?_⟩, fun s w hop hw => ?_⟩
  · exact runWord_of_decode_ok (decode_encode (i := .nop) rfl) s
  · exact runWord_of_decode_error (decode_nop_opcode_of_ne_zero hop hw) s

/-- Settles O17: CLEAR as the reset state but for the flags it keeps and the ports. -/
theorem clearGivesResetStateButHostFlags : Obligations.ClearGivesResetStateButHostFlags := by
  refine ⟨fun s => ⟨_, exec_clear_eq s, ?_⟩, exec_clear_resetWith⟩
  have hflag := fun f => clearAttemptFlags_flag f s
  exact ⟨rfl, rfl, rfl, rfl, fun _ => rfl, resetWith_bit s.cfg, hflag .trOvf, hflag .bitOvf,
    hflag .timeErr, hflag .seqErr, hflag .cmdErr, rfl⟩

/-- Settles O19: CLEAR keeps the parameters, the ports, SEQ_ERR and CMD_ERR, and nothing else. -/
theorem clearForgetsTheAttempt : Obligations.ClearForgetsTheAttempt := by
  intro s₁ s₂ hcfg hport hrsp hresponses hseq hcmd
  refine ⟨_, exec_clear_eq s₁, ?_⟩
  rw [exec_clear_eq, clearAttemptFlags_fault_eq hseq hcmd, hcfg, hport, hrsp, hresponses]

/-- Settles O45: the three commands that look at the phase refuse alike; an ILLEGAL word does not look at
it. -/
theorem wrongPhaseSetsSeqErrOnly : Obligations.WrongPhaseSetsSeqErrOnly :=
  ⟨fun _ _ => exec_of_outOfPhase, fun s _ _ hd => runWord_of_decode_error hd s⟩

end

/-! PROOFS. Exceptions (spec/60_exceptions.md): what a command can do to FAULT, said once; from it, who raises
which flag, how many at a time (R109, R117), and that a flag stays set until the event that clears it (R109); the
level outputs (R116) and idling (R124). -/

namespace Sys2Proof.Machine

/-! ### What a command can do to FAULT -/

/-- The raiser column of R109: the commands that may set a flag, and the phase in which they may. -/
def MayRaise (p : Phase) (i : Instr) : FaultFlag → Prop
  | .trOvf => (∃ l tm, i = .sample l tm) ∧ p = .capture
  | .bitOvf => i = .decode ∧ p = .capture
  | .timeErr => i = .decode ∧ p = .capture
  | .seqErr => (∃ l tm, i = .sample l tm) ∨ i = .decode ∨ i = .validate
  | .cmdErr => (∃ reg, i = .rd reg) ∨ (∃ idx, i = .rdt idx)

theorem flag_eq_of_fault_eq {s t : State} (h : t.fault = s.fault) (f : FaultFlag) :
    t.flag f = s.flag f := by
  rw [State.flag, State.flag, h]

/-- A command out of phase is one of the raisers of SEQ_ERR. -/
theorem mayRaise_seqErr_of_outOfPhase {p : Phase} {i : Instr} (h : outOfPhase p i = true) :
    MayRaise p i .seqErr := by
  rw [outOfPhase_eq] at h
  cases i with
  | sample l tm => exact .inl ⟨l, tm, rfl⟩
  | decode => exact .inr (.inl rfl)
  | validate => exact .inr (.inr rfl)
  | nop | clear | rd | rdt => exact Bool.noConfusion h

theorem captureEdge_fault (l : Level) (tm : Timestamp) (s : State) :
    (captureEdge l tm s).fault = s.fault ∨ (captureEdge l tm s).fault = (raise .trOvf s).fault := by
  unfold captureEdge
  split
  · exact .inl rfl
  · exact .inr rfl

/-- Everything a command can do to FAULT: nothing, set one flag it may raise, CLEAR's clearing of the attempt
flags, or what DECODE's loop leaves. -/
theorem exec_fault_cases {s t : State} {i : Instr} (hx : exec i s = .next t) :
    t.fault = s.fault ∨
    (∃ g, MayRaise s.phase i g ∧ t.fault = (raise g s).fault) ∨
    (i = .clear ∧ t.fault = (clearAttemptFlags s).fault) ∨
    (i = .decode ∧ s.phase = .capture ∧
      t.fault = (decodeLoop (s.cfg.transCap - 1) 1 s).fault) := by
  cases hcell : outOfPhase s.phase i with
  | true =>
    rw [exec_of_outOfPhase hcell] at hx
    cases hx
    exact .inr (.inl ⟨.seqErr, mayRaise_seqErr_of_outOfPhase hcell, rfl⟩)
  | false =>
    rw [outOfPhase_eq] at hcell
    cases i with
    | nop => cases hx; exact .inl rfl
    | clear => cases hx; exact .inr (.inr (.inl ⟨rfl, rfl⟩))
    | sample l tm =>
      have hp : s.phase = .capture := of_not_not (of_decide_eq_false hcell)
      rw [exec_sample_of_capture hp] at hx
      cases hx
      split
      · exact (captureEdge_fault l tm s).imp id fun h => .inl ⟨.trOvf, ⟨⟨l, tm, rfl⟩, hp⟩, h⟩
      · exact .inl rfl
    | decode =>
      have hp : s.phase = .capture := of_not_not (of_decide_eq_false hcell)
      rw [exec_decode_of_capture hp] at hx
      cases hx
      exact .inr (.inr (.inr ⟨rfl, hp, rfl⟩))
    | validate =>
      rw [exec_validate_of_decoded (of_not_not (of_decide_eq_false hcell))] at hx
      cases hx
      exact .inl rfl
    | rd reg =>
      simp only [exec, execRd] at hx
      split at hx <;> cases hx
      · exact .inl rfl
      · exact .inr (.inl ⟨.cmdErr, .inl ⟨reg, rfl⟩, rfl⟩)
    | rdt idx =>
      simp only [exec, execRdt] at hx
      split at hx <;> cases hx
      · exact .inl rfl
      · exact .inr (.inl ⟨.cmdErr, .inr ⟨idx, rfl⟩, rfl⟩)

/-! ### A flag that rises, and a flag that falls -/

/-- The flag that rises is the one raised. -/
theorem eq_of_raise_flag_rises {s t : State} {f g : FaultFlag} (h : t.fault = (raise g s).fault)
    (hclear : s.flag f = false) (hset : t.flag f = true) : g = f := by
  rw [flag_eq_of_fault_eq h, raise_flag, hclear, Bool.or_false] at hset
  exact of_decide_eq_true hset

/-- A flag that rises is one the command may raise, and the only one unless the command is DECODE
(60_exceptions.md R109, R117). -/
theorem exec_flag_rises {s t : State} {i : Instr} {f : FaultFlag} (hx : exec i s = .next t)
    (hclear : s.flag f = false) (hset : t.flag f = true) :
    MayRaise s.phase i f ∧ (i ≠ .decode → t.fault = (raise f s).fault) := by
  have hrises : ¬ t.flag f = s.flag f := by rw [hset, hclear]; exact Bool.noConfusion
  obtain hsame | ⟨g, hg, hraise⟩ | ⟨-, hcleared⟩ | ⟨rfl, hp, hloop⟩ := exec_fault_cases hx
  · exact absurd (flag_eq_of_fault_eq hsame f) hrises
  · obtain rfl := eq_of_raise_flag_rises hraise hclear hset
    exact ⟨hg, fun _ => hraise⟩
  · rw [flag_eq_of_fault_eq hcleared, clearAttemptFlags_flag, hclear, Bool.and_false] at hset
    exact Bool.noConfusion hset
  · refine ⟨?_, fun h => absurd rfl h⟩
    have hkept := (decodeLoop_flag f (s.cfg.transCap - 1) 1 s).2
    rw [← flag_eq_of_fault_eq hloop] at hkept
    cases f with
    | bitOvf | timeErr => exact ⟨rfl, hp⟩
    | trOvf | seqErr | cmdErr => exact absurd (hkept (by decide) (by decide)) hrises

theorem raise_flag_of_flag {s : State} {f : FaultFlag} (h : s.flag f = true) (g : FaultFlag) :
    (raise g s).flag f = true := by
  rw [raise_flag, h, Bool.or_true]

/-- The flags that CLEAR does not keep are those of one attempt (10_state.md R34). -/
theorem clearAttemptFlags_flag_of_flag {s : State} {f : FaultFlag} (h : s.flag f = true) :
    (clearAttemptFlags s).flag f = true ∨ f = .trOvf ∨ f = .bitOvf ∨ f = .timeErr := by
  rw [clearAttemptFlags_flag, h]
  cases f <;> decide

/-- No command but CLEAR clears a flag, and CLEAR only one of the attempt's (60_exceptions.md R109). -/
theorem exec_flag_stays {s t : State} {i : Instr} {f : FaultFlag} (hx : exec i s = .next t)
    (h : s.flag f = true) :
    t.flag f = true ∨ (i = .clear ∧ (f = .trOvf ∨ f = .bitOvf ∨ f = .timeErr)) := by
  obtain hf | ⟨g, -, hf⟩ | ⟨rfl, hf⟩ | ⟨-, -, hf⟩ := exec_fault_cases hx <;>
    rw [flag_eq_of_fault_eq hf]
  · exact .inl h
  · exact .inl (raise_flag_of_flag h g)
  · exact (clearAttemptFlags_flag_of_flag h).imp id fun hf => ⟨rfl, hf⟩
  · exact .inl ((decodeLoop_flag f _ 1 s).1 h)

theorem takeReset_flag (rest : List PortEvent) (s : State) (f : FaultFlag) :
    (takeReset rest s).flag f = false := BitVec.getLsbD_zero

/-! ### The output `fault_o` (60_exceptions.md R116) -/

theorem faultO_eq_true_iff (s : State) : s.faultO = true ↔ ∃ f, s.flag f = true := by
  simp only [faultO_eq_or, Bool.or_eq_true]
  constructor
  · rintro ((((h | h) | h) | h) | h) <;> exact ⟨_, h⟩
  · rintro ⟨f, h⟩
    cases f <;> simp only [h, true_or, or_true]

/-- After CLEAR's clearing, only SEQ_ERR and CMD_ERR can hold `fault_o` up. -/
theorem clearAttemptFlags_faultO (s : State) :
    (clearAttemptFlags s).faultO = (s.flag .seqErr || s.flag .cmdErr) := by
  simp [faultO_eq_or, clearAttemptFlags_flag]

end Sys2Proof.Machine

/-! ### The obligations of 60_exceptions.md -/

section
open Sys2Proof Sys2Proof.Machine

/-- Settles O47: of all a step can be, only a CLEAR and a reset clear a flag. -/
theorem faultFlagsAreSticky : Obligations.FaultFlagsAreSticky := by
  refine ⟨fun s t f h hset => ?_, fun s w rest hp hd => ?_, fun s rest hp =>
    ⟨_, step_of_reset hp, takeReset_flag rest s⟩⟩
  · obtain ⟨-, rfl⟩ | ⟨rest, hp, -⟩ | ⟨w, rest, hp, ⟨i, hd, hx⟩ | ⟨e, -, rfl⟩⟩ := step_cases s t h
    · exact .inl hset
    · exact .inr (.inl ⟨rest, hp⟩)
    · obtain hstays | ⟨rfl, hf⟩ := exec_flag_stays (s := takeCommand rest s) hx hset
      · exact .inl hstays
      · exact .inr (.inr ⟨hf, w, rest, hp, hd⟩)
    · exact .inl (raise_flag_of_flag (s := takeCommand rest s) hset .cmdErr)
  · have hflag := fun f => clearAttemptFlags_flag f (takeCommand rest s)
    exact ⟨_, (step_of_decode_ok hp hd).trans (exec_clear_eq _), hflag .trOvf, hflag .bitOvf,
      hflag .timeErr⟩

/-- Settles O48: the statement writes out the raiser column, flag by flag. -/
theorem flagRaisersAreThoseListed : Obligations.FlagRaisersAreThoseListed := by
  intro s t i f hx hclear hset
  obtain ⟨hmay, -⟩ := exec_flag_rises hx hclear hset
  cases f <;> exact hmay

/-- Settles O49: but for DECODE, a command that raises `f` leaves FAULT as `raise f` does. -/
theorem atMostOneFlagPerCommand : Obligations.AtMostOneFlagPerCommand := by
  intro s t i f g hi hx hf hf' hg hg'
  obtain ⟨-, honly⟩ := exec_flag_rises hx hf hf'
  exact eq_of_raise_flag_rises (honly hi) hg hg'

/-- Settles O10: idling ends the response that stands and changes nothing else. -/
theorem stepIdleLosesNothing : Obligations.StepIdleLosesNothing := fun _ hp => step_of_idle hp

/-- Settles O14: the outputs as the flags, the phase and `val_ok` give them, after CLEAR and after reset. -/
theorem outputsFollowState : Obligations.OutputsFollowState :=
  ⟨fun s => ⟨faultO_eq_true_iff s, beq_iff_eq, rfl⟩,
    fun s => ⟨_, exec_clear_eq s, rfl, rfl, clearAttemptFlags_faultO s⟩,
    fun _ _ hp => ⟨_, step_of_reset hp, rfl, rfl, rfl⟩⟩

end

/-! PROOFS. Reset (spec/70_reset_and_hazards.md): a reset step gives the reset state with the outputs at 0
(R125, R127), and it is CLEAR followed by FAULT <- 0 (R126). -/

namespace Sys2Proof.Machine

theorem takeReset_faultO (rest : List PortEvent) (s : State) : (takeReset rest s).faultO = false := by
  simp only [faultO_eq_or, takeReset_flag, Bool.or_false]

/-- CLEAR and then FAULT <- 0 leaves the reset state, but for the ports, which CLEAR does not touch. -/
theorem exec_clear_fault_zero {s t : State} (h : exec .clear s = .next t) :
    { t with fault := 0 } =
      { State.resetWith s.cfg with port := s.port, rsp := s.rsp, responses := s.responses } := by
  rw [exec_clear_eq] at h
  obtain rfl := Host.Outcome.next.inj h
  rfl

end Sys2Proof.Machine

/-! ### The obligations of 70_reset_and_hazards.md -/

section
open Sys2Proof Sys2Proof.Machine

/-- Settles O9: no flag is set, so `fault_o` is 0; the reset state is in CAPTURE, without a valid frame and
without a response, so the other outputs are 0 too. -/
theorem stepResetGivesResetState : Obligations.StepResetGivesResetState := fun s rest hp =>
  ⟨takeReset rest s, step_of_reset hp, rfl, takeReset_faultO rest s, rfl, rfl, rfl⟩

/-- Settles O18: with the event taken and no response standing, CLEAR's state at FAULT 0 is the reset
step's state. -/
theorem resetIsClearThenFaultZero : Obligations.ResetIsClearThenFaultZero := by
  intro s rest hp
  have hclear := exec_clear_eq { s with port := rest, rsp := none }
  exact ⟨_, takeReset rest s, hclear, step_of_reset hp, (exec_clear_fault_zero hclear).symm⟩

end
